-- ==== Sys2Proof/Word.lean ====
section
/-! DEFINITION. The machine's words: bytes, the 9-bit program counter, register numbers
(spec/00_scope.md R4, R5). All values are unsigned (section 5). -/

namespace Sys2Proof

/-- A memory cell, a general register, FL, an operand byte: 8 bits (R4, R5). -/
abbrev Byte := BitVec 8

/-- The program counter: 9 bits, so that the address one past the last cell, `0x100`, does not wrap
(spec/10_state.md R14). -/
abbrev PcWord := BitVec 9

/-- A register number, 0 to 7 (spec/10_state.md R10). -/
abbrev RegIdx := Fin 8

/-- An interrupt number, 0 to 7 (spec/60_exceptions.md R173, R176). -/
abbrev IntNum := Fin 8

end Sys2Proof
end

