-- ==== Sys2Proof/Config.lean ====
section
/-! DEFINITION. What is fixed for the life of the machine: its sizes (spec/00_scope.md R4) and the
type of its one open parameter, `POLICY` (R7, spec/60_exceptions.md R176). The two named policies
stand in Sys2Proof/Machine/Policy.lean. -/

namespace Sys2Proof

/-- `MEM_SIZE`: the number of memory cells (R4). -/
def Config.memSize : Nat := 256

/-- `SP_INIT`: the stack pointer's construction value, and the constant above which nothing can be
popped (R4; spec/43_stack_and_control_transfer.md R131). -/
def Config.spInit : Byte := 0xF4

/-- `POLICY`: a record of four pure, total functions (R176). `vector` sees the memory as the function
from addresses to cell values (log 11). -/
structure Policy where
  /-- which interrupt to deliver, given the mask register and the status register -/
  select : Byte → Byte → Option IntNum
  /-- the handler address of an interrupt, given the memory -/
  vector : IntNum → (Byte → Byte) → Byte
  /-- the new status register when an interrupt is accepted -/
  ack : Byte → IntNum → Byte
  /-- the new status register when INTE is executed with an operand value -/
  inte : Byte → Byte → Byte
  deriving Inhabited

/-- The names of policies, plain data: the two the spec names (R177, R178), and any number of others
about which nothing is known. DESIGN CHOICE (log 1). -/
inductive PolicyId where
  /-- `POLICY_NONE` (R177) -/
  | none
  /-- `POLICY_LS8` (R178) -/
  | ls8
  /-- a policy the spec leaves open (R7, decision D21): a free value -/
  | custom (k : Nat)
  deriving DecidableEq, Repr

/-- The policies the spec leaves open. FREE VALUE: it has no body, so nothing can be proved of what it
holds, and a statement over every `PolicyId` holds for every policy (log 1). -/
opaque Config.freePolicy : Nat → Policy

end Sys2Proof
end

