-- ==== Sys2Proof/Machine/Policy.lean ====
section
/-! DEFINITION. The interrupt policies: the two the spec names (spec/60_exceptions.md R177, R178) and
the free ones (R176, Config.freePolicy). -/

namespace Sys2Proof.Machine

/-- `POLICY_NONE` (R177): no interrupt is ever delivered and INTE changes nothing but PC. -/
def policyNone : Policy where
  select _ _ := none
  vector _ _ := 0x00
  ack is _ := is
  inte is _ := is

/-- The byte with bit `n` alone set. -/
def bitOf (n : IntNum) : Byte := 1 <<< n.val

/-- The lowest numbered set bit (R178: bit 0 has the highest priority). -/
def lowestSetBit (m : Byte) : Option IntNum :=
  [(0 : IntNum), 1, 2, 3, 4, 5, 6, 7].find? (fun n => m.getLsbD n.val)

/-- The interrupt a value names under `POLICY_LS8`: `v[2:0]` (R178). -/
def lowThreeBits (v : Byte) : IntNum := ⟨v.toNat % 8, Nat.mod_lt _ (by decide)⟩

/-- The vector cell of interrupt `n` under `POLICY_LS8` (R178). -/
def vectorCell (n : IntNum) : Byte := 0xF8 + BitVec.ofNat 8 n.val

/-- `POLICY_LS8` (R178). -/
def policyLs8 : Policy where
  select im is := lowestSetBit (im &&& is)
  vector n M := M (vectorCell n)
  ack is n := is &&& ~~~ bitOf n
  inte is v := is ||| bitOf (lowThreeBits v)

/-- The policy a name stands for. -/
def policyOf : PolicyId → Policy
  | .none => policyNone
  | .ls8 => policyLs8
  | .custom k => Config.freePolicy k

end Sys2Proof.Machine
end

