-- ==== Sys2Proof/Machine/State.lean ====
section
/-! DEFINITION. The machine's state as plain data (spec/10_state.md section 1), and its value after
reset (R30). -/

namespace Sys2Proof.Machine

/-- `RUN` (spec/10_state.md R19). -/
inductive RunState where
  /-- the machine takes no step -/
  | halted
  /-- the machine steps -/
  | running
  deriving DecidableEq, Repr

/-- The direction a StackFault carries (R20). -/
inductive StackDirection where
  | push
  | pop
  deriving DecidableEq, Repr

/-- The machine's faults (spec/60_exceptions.md R160). Each one's effect is described by the spec (RUN
becomes Halted and STATUS records it, R162), so a step that raises one answers a NEXT state that
holds it in `status`; no step of the model answers `Host.Outcome.fault` (log 3). Recording a fault
this way is safe: it is what the spec says the machine does. -/
inductive Fault where
  /-- raised by DIV on a zero divisor (R113); safe -/
  | divisionByZero
  /-- raised by decode: the byte at `pc` is not in the opcode map (R161); safe -/
  | unknownOpcode (pc byte : Byte)
  /-- raised by PUSH, CALL and interrupt entry (`push`), by POP, RET and IRET (`pop`); `address` is
  x[7] as the step began (R166); safe -/
  | stackFault (direction : StackDirection) (address : Byte)
  /-- raised by nothing (spec/42_alu.md R118); kept because the spec's STATUS has it (log 14); safe -/
  | unsupportedAluOperation
  /-- raised by the PC range check, an operand fetch past 0xFF, and CALL's return address (R167); safe -/
  | memoryFault (address : PcWord)
  /-- raised by every instruction with a register operand when that byte is above 7
  (spec/40_fsm_control.md R85); safe -/
  | invalidRegister (pc byte : Byte)
  deriving DecidableEq, Repr

/-- Why the model gives a step no meaning. -/
inductive Refusal where
  /-- raised by `exec` for an instruction that has no meaning yet; no instruction is in that case; safe -/
  | notModelled (mnemonic : String)
  deriving DecidableEq, Repr

/-- `STATUS` (R20): why the machine is halted. -/
inductive Status where
  /-- after reset, or running -/
  | idle
  /-- HLT executed -/
  | cleanHalt
  /-- a fault stopped the machine -/
  | faulted (f : Fault)
  deriving DecidableEq, Repr

/-- Memory (R24): the cells that do not hold what an unlisted address reads as, in rising order of
address. The operations on it, and the predicate of this form, stand in Machine/Ops.lean (log 9). -/
abbrev Memory := List Host.Cell

/-- All the state of the machine (spec/10_state.md section 1). -/
structure State where
  /-- `x[0]` to `x[7]` (R10); 5 is IM, 6 is IS, 7 is SP (R11) -/
  regs : Vector Byte 8
  /-- `PC`, 9 bits (R14) -/
  pc : PcWord
  /-- `FL`, 8 bits without meaning (R16) -/
  fl : Byte
  /-- `IE`, interrupt acceptance enable (R18) -/
  ie : Bool
  /-- `M` (R24) -/
  mem : Memory
  /-- `RUN` (R19) -/
  run : RunState
  /-- `STATUS` (R20) -/
  status : Status
  /-- `OUT`, the print port's output so far, oldest first (R28; log 15) -/
  out : List Byte
  /-- which `POLICY` this machine has (spec/00_scope.md R7). THE MODEL'S OWN field: the spec calls the
  policy a parameter, fixed for the life of the machine, and no operation changes it (log 1) -/
  policy : PolicyId
  deriving DecidableEq, Repr

/-- The machine right after reset (R30). The policy is the model's choice, `POLICY_NONE`: DESIGN CHOICE
(log 2); every other value is R30's. -/
def State.reset : State where
  regs := #v[0x00, 0x00, 0x00, 0x00, 0x00, 0x00, 0x00, Config.spInit]
  pc := 0x000
  fl := 0x00
  ie := true
  mem := []
  run := .halted
  status := .idle
  out := []
  policy := .none

end Sys2Proof.Machine
end

