-- ==== Sys2Proof/Machine/Ops.lean ====
section
/-! DEFINITION. The named operations over registers, memory, the stack and the control state, taking a
fault (`raise`), taking an interrupt (`interruptEntry`) and returning from one (`interruptReturn`). -/

namespace Sys2Proof.Machine

/-- What a step answers. -/
abbrev Outcome := Host.Outcome State Fault Refusal

/-! ### Memory -/

/-- What an address not listed reads as: memory is zero-initialized (spec/10_state.md R24, R30). -/
def Memory.unlisted : Byte := 0x00

/-- The cell at an address (spec/20_memory.md R45). -/
def Memory.read : Memory → Nat → Byte
  | [], _ => Memory.unlisted
  | (b, w) :: rest, a => if a = b then w else Memory.read rest a

/-- List a cell at its place in the rising order, in the stead of an earlier one at its address. -/
def Memory.put : Memory → Nat → Byte → Memory
  | [], a, v => [(a, v)]
  | (b, w) :: rest, a, v =>
    if a < b then (a, v) :: (b, w) :: rest
    else if a = b then (a, v) :: rest
    else (b, w) :: Memory.put rest a v

/-- `M[a] <- v`: a cell that comes to hold what an unlisted address reads as is taken off the list. -/
def Memory.write (m : Memory) (a : Nat) (v : Byte) : Memory :=
  if v = Memory.unlisted then m.filter (fun c => c.1 != a) else m.put a v

/-- Write consecutive cells from an address upward (spec/70_reset_and_hazards.md R204). -/
def Memory.writeList (m : Memory) (a : Nat) : List Byte → Memory
  | [] => m
  | v :: vs => Memory.writeList (m.write a v) (a + 1) vs

/-- The canonical form: addresses strictly rising, all inside the memory, and no cell listed that holds
what an unlisted address reads as. Equal memories are then equal lists (log 9). -/
abbrev Memory.wf (m : Memory) : Prop :=
  m.Pairwise (fun c d => c.1 < d.1) ∧ ∀ c ∈ m, c.1 < Config.memSize ∧ c.2 ≠ Memory.unlisted

/-! ### Widths -/

/-- `zext_9` (spec/00_scope.md section 5). -/
def zext9 (v : Byte) : PcWord := v.setWidth 9

/-- `PC[7:0]`. -/
def low8 (p : PcWord) : Byte := p.setWidth 8

/-! ### Registers and control state -/

/-- IM is register 5 (spec/10_state.md R11). -/
def imIdx : RegIdx := 5
/-- IS is register 6 (R11). -/
def isIdx : RegIdx := 6
/-- SP is register 7 (R11). -/
def spIdx : RegIdx := 7

/-- `x[r]`; no register is hardwired (R11). -/
def State.reg (s : State) (r : RegIdx) : Byte := s.regs[r.val]

/-- `x[r] <- v`. -/
def State.setReg (s : State) (r : RegIdx) (v : Byte) : State :=
  { s with regs := s.regs.set r.val v r.isLt }

/-- The stack pointer (R11, R13). -/
def State.sp (s : State) : Byte := s.reg spIdx

/-- `PC <- p`. -/
def State.setPc (s : State) (p : PcWord) : State := { s with pc := p }

/-- An instruction of length `n` advances PC by it (spec/40_fsm_control.md R86; in 9 bits, log 7). -/
def State.advance (s : State) (n : Nat) : State := s.setPc (s.pc + BitVec.ofNat 9 n)

/-- `MemRead(a, 1)` at an 8-bit address, which is always in range (spec/20_memory.md R44). -/
def State.load8 (s : State) (a : Byte) : Byte := s.mem.read a.toNat

/-- `MemWrite(a, 1, v)` at an 8-bit address, which is always in range (R44). -/
def State.store8 (s : State) (a v : Byte) : State := { s with mem := s.mem.write a.toNat v }

/-- `emit_print(v)` (spec/10_state.md R28). -/
def State.emitPrint (s : State) (v : Byte) : State := { s with out := s.out ++ [v] }

/-- `RUN <- Halted` and `STATUS <- st` (spec/40_fsm_control.md R80). -/
def State.haltWith (s : State) (st : Status) : State := { s with run := .halted, status := st }

/-- The machine's `POLICY` (spec/60_exceptions.md R176). -/
def State.pol (s : State) : Policy := policyOf s.policy

/-! ### Faults -/

/-- `raise f` (spec/00_scope.md section 6): nothing changes but RUN and STATUS
(spec/60_exceptions.md R162). -/
def raise (f : Fault) (s : State) : Outcome := .next (s.haltWith (.faulted f))

/-! ### The stack (spec/43_stack_and_control_transfer.md R130, R131) -/

/-- The cell the next push writes. -/
def pushSlot (s : State) : Byte := s.sp - 1

/-- The first half of `push`: refuse at x[7] = 0, else decrement x[7] (R130). What is pushed is read
after this. -/
def growStack (s : State) : Except Fault State :=
  if s.sp = 0 then .error (.stackFault .push s.sp) else .ok (s.setReg spIdx (pushSlot s))

/-- The second half of `push`: `M[x[7]] <- v` (R130). -/
def storeTop (v : Byte) (s : State) : State := s.store8 s.sp v

/-- The first half of `pop`: refuse at or above `SP_INIT`, else read `M[x[7]]` (R131). -/
def peekTop (s : State) : Except Fault Byte :=
  if Config.spInit ≤ s.sp then .error (.stackFault .pop s.sp) else .ok (s.load8 s.sp)

/-- The second half of `pop`: increment x[7], as it is now (R131, R133). -/
def dropTop (s : State) : State := s.setReg spIdx (s.sp + 1)

/-! ### Interrupts (spec/60_exceptions.md section 4) -/

/-- A push whose check was made beforehand (spec/60_exceptions.md R163). -/
def pushChecked (v : Byte) (s : State) : State := storeTop v (s.setReg spIdx (pushSlot s))

/-- The number of bytes of the interrupt frame (R174). -/
def frameSize : Byte := 9

/-- The bytes an interrupt entry pushes, in the order of its pushes (R173): PC, x[6] down to x[0], FL. -/
def entryFrame (s : State) : List Byte :=
  [low8 s.pc, s.reg 6, s.reg 5, s.reg 4, s.reg 3, s.reg 2, s.reg 1, s.reg 0, s.fl]

/-- IE is cleared and the status register acknowledged before anything is saved (R173). -/
def acknowledge (n : IntNum) (s : State) : State :=
  { s with ie := false }.setReg isIdx (s.pol.ack (s.reg isIdx) n)

/-- The nine pushes (R173). -/
def pushFrame (s : State) : State := (entryFrame s).foldl (fun t v => pushChecked v t) s

/-- `interrupt_entry(n)` (R173): all nine pushes are checked before the first, and the vector is read
from the memory as the pushes leave it. -/
def interruptEntry (n : IntNum) (s : State) : Outcome :=
  if s.sp < frameSize then raise (.stackFault .push s.sp) s
  else
    let t := pushFrame (acknowledge n s)
    .next (t.setPc (zext9 (t.pol.vector n t.load8)))

/-- The highest stack pointer from which nine bytes can be popped (spec/44_interrupt_instructions.md
R151). -/
def returnLimit : Byte := 0xEB

/-- The return from an interrupt, nine pops checked before the first (R151): FL, x[0] to x[6], PC, then
IE is set. -/
def interruptReturn (s : State) : Outcome :=
  if returnLimit < s.sp then raise (.stackFault .pop s.sp) s
  else
    let b (k : Byte) : Byte := s.load8 (s.sp + k)
    .next { s with
      fl := b 0
      regs := #v[b 1, b 2, b 3, b 4, b 5, b 6, b 7, s.sp + frameSize]
      pc := zext9 (b 8)
      ie := true }

/-- The interrupt taken at this boundary, if any (R172). -/
def acceptedInterrupt (s : State) : Option IntNum :=
  if s.ie then s.pol.select (s.reg imIdx) (s.reg isIdx) else none

end Sys2Proof.Machine
end

