-- ==== Sys2Proof/Machine/Flags.lean ====
section
/-! DEFINITION. The flags register. No instruction computes a flag: FL has no meaning bit by bit, is
read only by interrupt entry and written only by IRET, both as one byte (spec/10_state.md R16, R17;
spec/42_alu.md R116). So the whole of the flag computations is this one. -/

namespace Sys2Proof.Machine

/-- What an arithmetic instruction leaves in FL: what was there (R17, R116). -/
def flagsAfterAlu (s : State) : Byte := s.fl

end Sys2Proof.Machine
end

