-- ==== Sys2Proof/Machine/Operands.lean ====
section
/-! DEFINITION. The operand forms (spec/41_data_transfer.md section 1): register direct, immediate, and
the register-indirect store address. -/

namespace Sys2Proof.Machine

/-- The register an operand byte names: the whole byte is the index (spec/30_encoding.md R62). -/
def regOperand (b : Byte) : Option RegIdx := if h : b.toNat < 8 then some ⟨b.toNat, h⟩ else none

/-- One register operand: a byte above 7 raises InvalidRegister before anything changes
(spec/40_fsm_control.md R85). -/
def withReg (a : Byte) (s : State) (k : RegIdx → Outcome) : Outcome :=
  match regOperand a with
  | some r => k r
  | none => raise (.invalidRegister (low8 s.pc) a) s

/-- Two register operands, A checked before B (R85). -/
def withRegs (a b : Byte) (s : State) (k : RegIdx → RegIdx → Outcome) : Outcome :=
  withReg a s fun ra => withReg b s fun rb => k ra rb

/-- An immediate operand is its byte as it stands (spec/30_encoding.md R63). -/
def immediate (imm : Byte) : Byte := imm

/-- ST's effective address: the value of the register, with nothing added
(spec/41_data_transfer.md section 1). -/
def storeAddress (ra : RegIdx) (s : State) : Byte := s.reg ra

end Sys2Proof.Machine
end

