-- ==== Sys2Proof/Machine/Alu.lean ====
section
/-! DEFINITION. The ALU and ADD, MUL, DIV, INC (spec/42_alu.md). -/

namespace Sys2Proof.Machine

/-- The ALU's operation tags: these four and no other (R110). -/
inductive AluOp where
  | add
  /-- no opcode selects it (R115) -/
  | sub
  | mul
  | div
  deriving DecidableEq, Repr

/-- A natural number narrowed to the machine's word: `n mod 256` (R110). -/
def narrow (n : Nat) : Byte := BitVec.ofNat 8 n

/-- `alu(op, u, v)` (R110): the exact result, narrowed; `none` is the DivisionByZero signal. -/
def alu (op : AluOp) (u v : Byte) : Option Byte :=
  match op with
  | .add => some (narrow (u.toNat + v.toNat))
  | .sub => some (narrow (u.toNat + 256 - v.toNat))
  | .mul => some (narrow (u.toNat * v.toNat))
  | .div => if v = 0 then none else some (narrow (u.toNat / v.toNat))

/-- Write the ALU's result to the first operand's register (R117) and advance PC by the instruction's
length; on the ALU's signal raise DivisionByZero with nothing written (R113). FL is left as it
is (R116). -/
def aluWrite (op : AluOp) (ra : RegIdx) (v : Byte) (len : Nat) (s : State) : Outcome :=
  match alu op (s.reg ra) v with
  | some w => .next ({ s.setReg ra w with fl := flagsAfterAlu s }.advance len)
  | none => raise .divisionByZero s

/-- ADD a, b (R111). -/
def execAdd (a b : Byte) (s : State) : Outcome :=
  withRegs a b s fun ra rb => aluWrite .add ra (s.reg rb) 3 s

/-- MUL a, b (R112). -/
def execMul (a b : Byte) (s : State) : Outcome :=
  withRegs a b s fun ra rb => aluWrite .mul ra (s.reg rb) 3 s

/-- DIV a, b (R113). -/
def execDiv (a b : Byte) (s : State) : Outcome :=
  withRegs a b s fun ra rb => aluWrite .div ra (s.reg rb) 3 s

/-- INC a (R114): the ALU's ADD with 1. -/
def execInc (a : Byte) (s : State) : Outcome :=
  withReg a s fun ra => aluWrite .add ra 0x01 2 s

end Sys2Proof.Machine
end

