-- ==== Sys2Proof/Machine/Control.lean ====
section
/-! DEFINITION. NOP, HLT, PRN (spec/40_fsm_control.md sections 3 to 5). -/

namespace Sys2Proof.Machine

/-- NOP (R87). -/
def execNop (s : State) : Outcome := .next (s.advance 1)

/-- HLT (R88): it advances PC like every other instruction. -/
def execHlt (s : State) : Outcome := .next ((s.advance 1).haltWith .cleanHalt)

/-- PRN a (R89). -/
def execPrn (a : Byte) (s : State) : Outcome :=
  withReg a s fun ra => .next ((s.emitPrint (s.reg ra)).advance 2)

end Sys2Proof.Machine
end

