-- ==== Sys2Proof/Machine/Interrupt.lean ====
section
/-! DEFINITION. INTE and IRET (spec/44_interrupt_instructions.md). -/

namespace Sys2Proof.Machine

/-- INTE a (R150): x[a] is read before x[6] is written; IE is not written and no handler is entered. -/
def execInte (a : Byte) (s : State) : Outcome :=
  withReg a s fun ra =>
    .next ((s.setReg isIdx (s.pol.inte (s.reg isIdx) (s.reg ra))).advance 2)

/-- IRET (R151). -/
def execIret (s : State) : Outcome := interruptReturn s

end Sys2Proof.Machine
end

