-- ==== Sys2Proof/Machine/Stack.lean ====
section
/-! DEFINITION. PUSH, POP, CALL, RET, JMP (spec/43_stack_and_control_transfer.md). -/

namespace Sys2Proof.Machine

/-- PUSH a (R132): x[a] is read after the decrement. -/
def execPush (a : Byte) (s : State) : Outcome :=
  withReg a s fun ra =>
    match growStack s with
    | .error f => raise f s
    | .ok t => .next ((storeTop (t.reg ra) t).advance 2)

/-- POP a (R133): x[7] is incremented as it is after x[a] is written. -/
def execPop (a : Byte) (s : State) : Outcome :=
  withReg a s fun ra =>
    match peekTop s with
    | .error f => raise f s
    | .ok v => .next ((dropTop (s.setReg ra v)).advance 2)

/-- CALL a (R134): the return address must be a memory address (log 7); x[a] is read after the push
(spec/90_conflicts.md C14). -/
def execCall (a : Byte) (s : State) : Outcome :=
  withReg a s fun ra =>
    if 0xFF < s.pc.toNat + 2 then raise (.memoryFault (s.pc + 2)) s
    else
      match growStack s with
      | .error f => raise f s
      | .ok t =>
        let u := storeTop (low8 (s.pc + 2)) t
        .next (u.setPc (zext9 (u.reg ra)))

/-- RET (R135). -/
def execRet (s : State) : Outcome :=
  match peekTop s with
  | .error f => raise f s
  | .ok v => .next (dropTop (s.setPc (zext9 v)))

/-- JMP a (R136). -/
def execJmp (a : Byte) (s : State) : Outcome :=
  withReg a s fun ra => .next (s.setPc (zext9 (s.reg ra)))

end Sys2Proof.Machine
end

