-- ==== Sys2Proof/Machine/Transfer.lean ====
section
/-! DEFINITION. LDI and ST (spec/41_data_transfer.md). -/

namespace Sys2Proof.Machine

/-- LDI a, imm (R100). -/
def execLdi (a imm : Byte) (s : State) : Outcome :=
  withReg a s fun ra => .next ((s.setReg ra (immediate imm)).advance 3)

/-- ST a, b (R101): operand A holds the address (spec/90_conflicts.md C1). -/
def execSt (a b : Byte) (s : State) : Outcome :=
  withRegs a b s fun ra rb => .next ((s.store8 (storeAddress ra s) (s.reg rb)).advance 3)

end Sys2Proof.Machine
end

