-- ==== Sys2Proof/Syntax.lean ====
section
/-! DEFINITION. The instruction set: one constructor for each row of spec/opcode_table.json
(spec/30_encoding.md R64), with the operand bytes as they stand in memory (R61). Whether a register
operand byte names a register is checked by WellFormed.lean, and by each meaning (R85), since a byte
above 7 is a fault of the instruction, not an undecodable byte (log 8). -/

namespace Sys2Proof

/-- An instruction. `a` is byte 1 and `b` or `imm` is byte 2 of its encoding (R61). -/
inductive Instr where
  /-- NOP: no operation (spec/40_fsm_control.md R87) -/
  | nop
  /-- HLT: halt (spec/40_fsm_control.md R88) -/
  | hlt
  /-- RET: return from subroutine (spec/43_stack_and_control_transfer.md R135) -/
  | ret
  /-- IRET: return from an interrupt handler (spec/44_interrupt_instructions.md R151) -/
  | iret
  /-- PUSH a: push a register (spec/43_stack_and_control_transfer.md R132) -/
  | push (a : Byte)
  /-- POP a: pop into a register (spec/43_stack_and_control_transfer.md R133) -/
  | pop (a : Byte)
  /-- PRN a: present a register on the print port (spec/40_fsm_control.md R89) -/
  | prn (a : Byte)
  /-- CALL a: call the subroutine a register points to (spec/43_stack_and_control_transfer.md R134) -/
  | call (a : Byte)
  /-- INTE a: the interrupt instruction (spec/44_interrupt_instructions.md R150) -/
  | inte (a : Byte)
  /-- JMP a: jump to the address in a register (spec/43_stack_and_control_transfer.md R136) -/
  | jmp (a : Byte)
  /-- INC a: increment a register (spec/42_alu.md R114) -/
  | inc (a : Byte)
  /-- LDI a, imm: load an immediate (spec/41_data_transfer.md R100) -/
  | ldi (a imm : Byte)
  /-- ST a, b: store register b where register a points (spec/41_data_transfer.md R101) -/
  | st (a b : Byte)
  /-- ADD a, b (spec/42_alu.md R111) -/
  | add (a b : Byte)
  /-- MUL a, b (spec/42_alu.md R112) -/
  | mul (a b : Byte)
  /-- DIV a, b (spec/42_alu.md R113) -/
  | div (a b : Byte)
  deriving DecidableEq, Repr

end Sys2Proof
end

