-- ==== Sys2Proof/Decode.lean ====
section
/-! DEFINITION. The opcode map of spec/30_encoding.md R64, the decoder over it, the encoder, and the
assembler spelling of an instruction (R68). Lengths come from the map alone (R71). -/

namespace Sys2Proof

/-- The four formats of R61, each with the instruction it builds from its operand bytes. -/
inductive Form where
  /-- F0: the opcode byte alone -/
  | f0 (i : Instr)
  /-- F1: opcode, register byte -/
  | f1 (mk : Byte → Instr)
  /-- F2R: opcode, register byte, register byte -/
  | f2r (mk : Byte → Byte → Instr)
  /-- F2I: opcode, register byte, immediate byte -/
  | f2i (mk : Byte → Byte → Instr)

/-- The number of operand bytes of a format (R60, R61). -/
def Form.operandCount : Form → Nat
  | .f0 _ => 0
  | .f1 _ => 1
  | .f2r _ => 2
  | .f2i _ => 2

/-- The dispatch table: the 16 rows of R64, a constant of the hardware (spec/00_scope.md R6). -/
def opcodeMap : List (Byte × Form) :=
  [ (0x00, .f0 .nop), (0x01, .f0 .hlt), (0x11, .f0 .ret), (0x13, .f0 .iret) ] ++
  [ (0x45, .f1 .push), (0x46, .f1 .pop), (0x47, .f1 .prn), (0x50, .f1 .call) ] ++
  [ (0x52, .f1 .inte), (0x54, .f1 .jmp), (0x65, .f1 .inc) ] ++
  [ (0x82, .f2i .ldi), (0x84, .f2r .st) ] ++
  [ (0xA0, .f2r .add), (0xA2, .f2r .mul), (0xA3, .f2r .div) ]

/-- Decode is a lookup of the whole opcode byte, with no state (spec/40_fsm_control.md R83). -/
def lookup (op : Byte) : Option Form := (opcodeMap.find? (fun row => row.1 == op)).map (·.2)

/-- `known(op)` of R64. -/
def known (op : Byte) : Bool := (lookup op).isSome

/-- `operand_count(op)` of R64; 0 for a byte outside the map, which has no length (R71). -/
def operandCount (op : Byte) : Nat := ((lookup op).map Form.operandCount).getD 0

/-- Why bytes are no instruction. -/
inductive DecodeError where
  /-- the opcode byte is not in the map (R65); nothing after it is examined (R71) -/
  | unknownOpcode (byte : Byte)
  /-- byte `k` of the instruction (0 is the opcode) is not there -/
  | missingByte (k : Nat)
  deriving DecidableEq, Repr

/-- Read one instruction from a sequence of bytes, giving back the bytes after it, which are not
examined (R66). Total: every other sequence is rejected by name. -/
def decode : List Byte → Except DecodeError (Instr × List Byte)
  | [] => .error (.missingByte 0)
  | op :: rest =>
    match lookup op, rest with
    | none, _ => .error (.unknownOpcode op)
    | some (.f0 i), rest => .ok (i, rest)
    | some (.f1 mk), a :: rest => .ok (mk a, rest)
    | some (.f1 _), [] => .error (.missingByte 1)
    | some (.f2r mk), a :: b :: rest => .ok (mk a b, rest)
    | some (.f2r _), [_] => .error (.missingByte 2)
    | some (.f2r _), [] => .error (.missingByte 1)
    | some (.f2i mk), a :: imm :: rest => .ok (mk a imm, rest)
    | some (.f2i _), [_] => .error (.missingByte 2)
    | some (.f2i _), [] => .error (.missingByte 1)

/-- The bytes of an instruction, lowest address first (R61, R64; spec/20_memory.md R42). -/
def encode : Instr → List Byte
  | .nop => [0x00]
  | .hlt => [0x01]
  | .ret => [0x11]
  | .iret => [0x13]
  | .push a => [0x45, a]
  | .pop a => [0x46, a]
  | .prn a => [0x47, a]
  | .call a => [0x50, a]
  | .inte a => [0x52, a]
  | .jmp a => [0x54, a]
  | .inc a => [0x65, a]
  | .ldi a imm => [0x82, a, imm]
  | .st a b => [0x84, a, b]
  | .add a b => [0xA0, a, b]
  | .mul a b => [0xA2, a, b]
  | .div a b => [0xA3, a, b]

/-- The three bytes, lowest address first, of an instruction whose bits are `w`: byte `k` is bits
`8k+7` to `8k`, and every bit from `nbits` on is 0. Three is the longest length (R60). -/
def wordBytes (nbits w : Nat) : List Byte :=
  let v := w % 2 ^ nbits
  [BitVec.ofNat 8 v, BitVec.ofNat 8 (v / 2 ^ 8), BitVec.ofNat 8 (v / 2 ^ 16)]

/-- What the decoder reads from an instruction whose bits are `w`, numbered as
spec/opcode_table.json numbers them. -/
def decodeTableWord (nbits w : Nat) : Option Instr :=
  match decode (wordBytes nbits w) with
  | .ok (i, _) => some i
  | .error _ => none

/-- The register's assembler name (R68: `R0` to `R7`; log 16). -/
def regName (b : Byte) : String := "R" ++ toString b.toNat

/-- The instruction as the spec writes it in assembler (R68): the mnemonic in upper case, the first
operand byte first, immediates in decimal. -/
def Instr.asm : Instr → String
  | .nop => "NOP"
  | .hlt => "HLT"
  | .ret => "RET"
  | .iret => "IRET"
  | .push a => "PUSH " ++ regName a
  | .pop a => "POP " ++ regName a
  | .prn a => "PRN " ++ regName a
  | .call a => "CALL " ++ regName a
  | .inte a => "INTE " ++ regName a
  | .jmp a => "JMP " ++ regName a
  | .inc a => "INC " ++ regName a
  | .ldi a imm => "LDI " ++ regName a ++ "," ++ toString imm.toNat
  | .st a b => "ST " ++ regName a ++ "," ++ regName b
  | .add a b => "ADD " ++ regName a ++ "," ++ regName b
  | .mul a b => "MUL " ++ regName a ++ "," ++ regName b
  | .div a b => "DIV " ++ regName a ++ "," ++ regName b

end Sys2Proof
end

