-- ==== Sys2Proof/Machine/Fetch.lean ====
section
/-! DEFINITION. The instruction boundary: the PC range check, the interrupt check, the fetch and the
decode (spec/40_fsm_control.md R81, stages 0 to 4), and placing an instruction where the next step
fetches it. -/

namespace Sys2Proof.Machine

/-- The cell at an address that may lie past the memory: nothing there (spec/20_memory.md R44). -/
def byteAt (s : State) (a : Nat) : Option Byte :=
  if a < Config.memSize then some (s.mem.read a) else none

/-- The bytes from PC on, as many as the longest instruction has and the memory holds. Reading a byte
changes nothing (spec/20_memory.md R45) and the decoder examines only those the opcode calls for, so
this is R82's fetch (log 10). -/
def fetchWindow (s : State) : List Byte :=
  [s.pc.toNat, s.pc.toNat + 1, s.pc.toNat + 2].filterMap (byteAt s)

/-- Fetch and decode (R81, stages 2 to 4). -/
def fetch (s : State) : Except Fault Instr :=
  match decode (fetchWindow s) with
  | .ok (i, _) => .ok i
  | .error (.unknownOpcode byte) => .error (.unknownOpcode (low8 s.pc) byte)
  | .error (.missingByte k) => .error (.memoryFault (s.pc + BitVec.ofNat 9 k))

/-- What the machine does next at an instruction boundary. -/
inductive Boundary where
  /-- the machine is halted and takes no step (R80) -/
  | idle
  /-- the step raises a fault before any instruction executes -/
  | raises (f : Fault)
  /-- the step is an interrupt entry -/
  | enters (n : IntNum)
  /-- the step executes an instruction -/
  | executes (i : Instr)
  deriving DecidableEq, Repr

/-- The boundary, in the order of R81 and spec/60_exceptions.md R164: PC range, interrupt, fetch and
decode. -/
def boundary (s : State) : Boundary :=
  match s.run with
  | .halted => .idle
  | .running =>
    if 0xFF < s.pc then .raises (.memoryFault s.pc)
    else
      match acceptedInterrupt s with
      | some n => .enters n
      | none =>
        match fetch s with
        | .error f => .raises f
        | .ok i => .executes i

/-- Where a three-byte instruction can be placed for the next fetch: at PC, or at 0 when it would not
fit from PC on. -/
def placeAt (s : State) : PcWord := if s.pc ≤ 0xFD then s.pc else 0

/-- The instruction with these bytes at the next fetch, and nothing in the way of that fetch: the
machine runs (spec/70_reset_and_hazards.md R205) and no interrupt is accepted first (log 5). -/
def placeInstruction (bytes : List Byte) (s : State) : State :=
  { s with
    pc := placeAt s
    mem := s.mem.writeList (placeAt s).toNat bytes
    run := .running
    status := .idle
    ie := s.ie && (acceptedInterrupt s).isNone }

end Sys2Proof.Machine
end

