-- ==== Sys2Proof/Machine/Step.lean ====
section
/-! DEFINITION. One step of the machine (spec/40_fsm_control.md R81). -/

namespace Sys2Proof.Machine

/-- One step: one instruction, one interrupt entry, or one fault; a halted machine stays as it is
(R80; log 4). -/
def step (s : State) : Host.Outcome State Fault Refusal :=
  match boundary s with
  | .idle => .next s
  | .raises f => raise f s
  | .enters n => interruptEntry n s
  | .executes i => exec i s

/-- `s` with the instruction whose bits are `w` where the next step fetches it, and running (log 5). -/
def State.withFetchWord (s : State) (nbits w : Nat) : State := placeInstruction (wordBytes nbits w) s

end Sys2Proof.Machine
end

