-- ==== Sys2Proof/Machine/HostPort.lean ====
section
/-! DEFINITION. What the host can do and see (spec/10_state.md R25): reset, `load`, `run`, the result,
the trace port. None of these is a step (log 12). -/

namespace Sys2Proof.Machine

/-- The answer to a `load` request (spec/70_reset_and_hazards.md R204). -/
inductive LoadReply where
  /-- accepted -/
  | loaded (s : State)
  /-- longer than the memory: nothing is written (spec/60_exceptions.md R168) -/
  | programTooLarge
  /-- the core owns the memory while it runs -/
  | refusedRunning
  deriving DecidableEq, Repr

/-- `load(bytes)` (R204). -/
def load (bytes : List Byte) (s : State) : LoadReply :=
  match s.run with
  | .running => .refusedRunning
  | .halted =>
    if Config.memSize < bytes.length then .programTooLarge
    else .loaded { s with mem := s.mem.writeList 0 bytes }

/-- `run` is accepted only when halted and not on a fault (R205). -/
def runAccepted (s : State) : Bool :=
  match s.run, s.status with
  | .halted, .idle => true
  | .halted, .cleanHalt => true
  | .halted, .faulted _ => false
  | .running, _ => false

/-- `run` (R205): the running machine, or `none` where the request is refused and nothing changes. -/
def runRequest (s : State) : Option State :=
  if runAccepted s then some { s with run := .running, status := .idle } else none

/-- Reset (R200): every element at R30's value; the policy is fixed for the life of the machine
(spec/60_exceptions.md R176; log 13). -/
def resetRequest (s : State) : State := { State.reset with policy := s.policy }

/-- `RunResult`, as it is read at any time (R206, spec/10_state.md R25). -/
def runResult (s : State) : RunState × Status := (s.run, s.status)

/-- The numeric code of a fault (spec/10_state.md R21). -/
def Fault.code : Fault → Nat
  | .divisionByZero => 2
  | .unknownOpcode _ _ => 3
  | .stackFault _ _ => 4
  | .unsupportedAluOperation => 5
  | .memoryFault _ => 6
  | .invalidRegister _ _ => 7

/-- The numeric code of STATUS (R21). -/
def Status.code : Status → Nat
  | .idle => 0
  | .cleanHalt => 1
  | .faulted f => f.code

/-- The numeric code of a direction (R21). -/
def StackDirection.code : StackDirection → Nat
  | .push => 0
  | .pop => 1

/-- What the trace port shows at a boundary (R29); a byte past the memory is absent. -/
structure TraceLine where
  pc : PcWord
  bytes : List (Option Byte)
  regs : Vector Byte 8
  deriving DecidableEq, Repr

/-- The trace port (R29): it reads the state and changes nothing. -/
def trace (s : State) : TraceLine where
  pc := s.pc
  bytes := [s.pc.toNat, s.pc.toNat + 1, s.pc.toNat + 2].map (byteAt s)
  regs := s.regs

end Sys2Proof.Machine
end

