-- ==== Sys2Proof/Machine/Run.lean ====
section
/-! DEFINITION. A run: steps in a row, for as long as the fuel lasts (spec/40_fsm_control.md R90, R91).
Running out of fuel is no event of the machine. -/

namespace Sys2Proof.Machine

/-- The state after `k` steps. A halted machine stays as it is, so this is the final state of a run once
it has ended (R90). -/
def runFor : Nat → State → State
  | 0, s => s
  | k + 1, s =>
    match step s with
    | .next t => runFor k t
    | .fault _ => s
    | .refused _ => s

end Sys2Proof.Machine
end

