-- ==== Sys2Proof/WellFormed.lean ====
section
/-! DEFINITION. Well-formed instructions: every register operand byte is 0 to 7
(spec/30_encoding.md R62). Immediates take every value (R63, R66), so LDI's second byte is not
checked (spec/40_fsm_control.md R85). -/

namespace Sys2Proof

/-- The operand byte names a register (R62: the whole byte is the index). -/
def isRegByte (b : Byte) : Bool := b.toNat < 8

/-- Every register operand of the instruction names a register (R62). -/
def Instr.wf : Instr → Bool
  | .nop => true
  | .hlt => true
  | .ret => true
  | .iret => true
  | .push a => isRegByte a
  | .pop a => isRegByte a
  | .prn a => isRegByte a
  | .call a => isRegByte a
  | .inte a => isRegByte a
  | .jmp a => isRegByte a
  | .inc a => isRegByte a
  | .ldi a _ => isRegByte a
  | .st a b => isRegByte a && isRegByte b
  | .add a b => isRegByte a && isRegByte b
  | .mul a b => isRegByte a && isRegByte b
  | .div a b => isRegByte a && isRegByte b

end Sys2Proof
end

