-- ==== Sys2Proof/Safety.lean ====
section
/-! DEFINITION. The terms claims are stated in: safe states, the invariant, what a state keeps of an
earlier one, and when a step fetches. None of it is used by the machine. -/

namespace Sys2Proof.Machine

/-! ### Safety and the invariant -/

/-- A state no fault has stopped. -/
def State.safe (s : State) : Bool :=
  match s.status with
  | .idle => true
  | .cleanHalt => true
  | .faulted _ => false

/-- What STATUS says of the state it was recorded in (spec/60_exceptions.md R160, R162, R166, R167):
the fault's conditions, with the address or byte it carries. No state holds
UnsupportedAluOperation (spec/42_alu.md R118). -/
def State.statusTruthful (s : State) : Prop :=
  match s.status with
  | .idle => True
  | .cleanHalt => True
  | .faulted .divisionByZero => True
  | .faulted (.unknownOpcode p b) => zext9 p = s.pc ∧ known b = false
  | .faulted (.stackFault .push a) => a = s.sp ∧ a < 9
  | .faulted (.stackFault .pop a) => a = s.sp ∧ 0xEB < a
  | .faulted .unsupportedAluOperation => False
  | .faulted (.memoryFault a) => a = 0x100 ∧ 0xFE ≤ s.pc
  | .faulted (.invalidRegister p b) => zext9 p = s.pc ∧ isRegByte b = false

/-- The machine's invariant: memory is in canonical form, PC never passes `0x100`
(spec/10_state.md R14), STATUS is Idle while running (R20), and STATUS is truthful. -/
def State.Inv (s : State) : Prop :=
  s.mem.wf ∧ s.pc ≤ 0x100 ∧ (s.run = .running → s.status = .idle) ∧ s.statusTruthful

/-! ### Frames -/

/-- The state a fault leaves (spec/60_exceptions.md R162): only RUN and STATUS differ. -/
def haltedOn (f : Fault) (s : State) : State := { s with run := .halted, status := .faulted f }

/-- Every register but those listed keeps its value. -/
def KeepsRegsBut (dests : List RegIdx) (s t : State) : Prop :=
  ∀ r : RegIdx, r ∉ dests → t.reg r = s.reg r

/-- Every cell but those at the listed addresses keeps its value. -/
def KeepsMemoryBut (dests : List Byte) (s t : State) : Prop :=
  ∀ a : Byte, a ∉ dests → t.load8 a = s.load8 a

/-- FL and IE keep their values. -/
def KeepsFlags (s t : State) : Prop := t.fl = s.fl ∧ t.ie = s.ie

/-- RUN and STATUS keep their values. -/
def KeepsRun (s t : State) : Prop := t.run = s.run ∧ t.status = s.status

/-- The print port's output and the policy keep their values. -/
def KeepsOutput (s t : State) : Prop := t.out = s.out ∧ t.policy = s.policy

/-- Everything but registers, memory and PC keeps its value. -/
def KeepsControl (s t : State) : Prop := KeepsFlags s t ∧ KeepsRun s t ∧ KeepsOutput s t

/-- The registers an instruction may write, as operand bytes (spec/10_state.md R12). -/
def writesRegs : Instr → List Byte
  | .nop => []
  | .hlt => []
  | .ret => [7]
  | .iret => [0, 1, 2, 3, 4, 5, 6, 7]
  | .push _ => [7]
  | .pop a => [a, 7]
  | .prn _ => []
  | .call _ => [7]
  | .inte _ => [6]
  | .jmp _ => []
  | .inc a => [a]
  | .ldi a _ => [a]
  | .st _ _ => []
  | .add a _ => [a]
  | .mul a _ => [a]
  | .div a _ => [a]

/-- The cells an instruction may write, by the functions its meaning computes them with
(spec/20_memory.md R46). -/
def storesTo (i : Instr) (s : State) : List Byte :=
  match i with
  | .nop => []
  | .hlt => []
  | .ret => []
  | .iret => []
  | .push _ => [pushSlot s]
  | .pop _ => []
  | .prn _ => []
  | .call _ => [pushSlot s]
  | .inte _ => []
  | .jmp _ => []
  | .inc _ => []
  | .ldi _ _ => []
  | .st a _ => (regOperand a).toList.map (fun ra => storeAddress ra s)
  | .add _ _ => []
  | .mul _ _ => []
  | .div _ _ => []

/-! ### Instruction boundaries -/

/-- The next step fetches an instruction: the machine runs, PC is in range, and no interrupt is taken
(spec/40_fsm_control.md R81). -/
abbrev Fetching (s : State) : Prop :=
  s.run = .running ∧ s.pc ≤ 0xFF ∧ (s.ie = false ∨ s.pol.select (s.reg 5) (s.reg 6) = none)

/-- The next step is the entry of interrupt `n` (spec/60_exceptions.md R172). -/
abbrev Interrupted (n : IntNum) (s : State) : Prop :=
  s.run = .running ∧ s.pc ≤ 0xFF ∧ s.ie = true ∧ s.pol.select (s.reg 5) (s.reg 6) = some n

/-- The next step fetches this opcode byte. -/
abbrev FetchesOpcode (op : Byte) (s : State) : Prop := Fetching s ∧ s.mem.read s.pc.toNat = op

/-- The bytes stand in memory from PC on, none of them past its end. -/
abbrev HasBytesAtPc (s : State) (bytes : List Byte) : Prop :=
  s.pc.toNat + bytes.length ≤ 256 ∧
    ∀ k : Nat, ∀ h : k < bytes.length, s.mem.read (s.pc.toNat + k) = bytes[k]

/-- The operand byte that names a register (spec/30_encoding.md R62). -/
def regByte (r : RegIdx) : Byte := BitVec.ofNat 8 r.val

/-- An instruction with this opcode and this many operand bytes that would extend past the memory
faults on its operand fetch, whatever else would happen (spec/60_exceptions.md R167). -/
def OperandFetchFaults (op : Byte) (n : Nat) : Prop :=
  ∀ s : State, FetchesOpcode op s → 0xFF < s.pc.toNat + n →
    step s = .next (haltedOn (.memoryFault 0x100) s)

/-- An instruction whose register operand byte is above 7 raises InvalidRegister and does nothing else
(spec/40_fsm_control.md R85). -/
def RefusesRegByte (i : Instr) (b : Byte) (s : State) : Prop :=
  exec i s = .next (haltedOn (.invalidRegister (low8 s.pc) b) s)

end Sys2Proof.Machine
end

