-- ==== Sys2Proof/Certificates/Slice0/Obligations.lean ====
section
/-! DEFINITION. The statements for the provers. Each is a `Prop`; none is proved here. A docstring
names the rule of spec/ the statement formalises, and the spec's own decision (D<n> of
spec/92_eei_decisions.md) or the log entry a clause rests on. -/

open Sys2Proof Sys2Proof.Machine

/-! ### Encoding -/

/-- Decode and encode agree, both ways: bytes decode to an instruction with a rest exactly when they
are that instruction's encoding followed by the rest. Every operand byte is covered, so nothing of an
encoding is dropped (spec/30_encoding.md sections 1 to 3; opcode bytes: decisions D2, D3). -/
def Obligations.DecodeReadsExactlyTheEncodings : Prop :=
  ∀ (bytes rest : List Byte) (i : Instr), decode bytes = .ok (i, rest) ↔ bytes = encode i ++ rest

/-- The opcode map is R64's: exactly 16 byte values are known, with the operand counts R64 gives them
(R64, R65; opcode bytes and some counts: decisions D2, D3, D4). -/
def Obligations.OpcodeMapIsTheSpecs : Prop :=
  let bytes : List Byte := [0x00, 0x01, 0x11, 0x13, 0x45, 0x46, 0x47, 0x50, 0x52, 0x54, 0x65, 0x82, 0x84,
    0xA0, 0xA2, 0xA3]
  (∀ op : Byte, known op = true ↔ op ∈ bytes) ∧
  bytes.map operandCount = [0, 0, 0, 0, 1, 1, 1, 1, 1, 1, 1, 2, 2, 2, 2, 2]

/-- The length of an instruction is one plus the operand count its opcode byte has in the map, and a byte
outside the map has none: it is rejected whatever follows (R71). -/
def Obligations.LengthComesFromTheOpcodeMap : Prop :=
  (∀ (op : Byte) (bytes rest : List Byte) (i : Instr), decode (op :: bytes) = .ok (i, rest) →
    (op :: bytes).length = 1 + operandCount op + rest.length) ∧
  ∀ (op : Byte) (bytes : List Byte), known op = false →
    decode (op :: bytes) = .error (.unknownOpcode op)

/-- The source's own program bytes, `82 00 08 47 00 01`, and one word of each other format and family,
decode to the instructions they stand for (spec/95_test_vectors.md S1, S2, T7, K13, I14, A7). -/
def Obligations.SpecWordsDecode : Prop :=
  decode [0x82, 0x00, 0x08, 0x47, 0x00, 0x01] = .ok (.ldi 0 8, [0x47, 0x00, 0x01]) ∧
  decode [0x47, 0x00, 0x01] = .ok (.prn 0, [0x01]) ∧
  decode [0x01] = .ok (.hlt, []) ∧
  decode [0xA0, 0x00, 0x01] = .ok (.add 0 1, []) ∧
  decode [0xA2, 0x00, 0x01] = .ok (.mul 0 1, []) ∧
  decode [0x84, 0x02, 0x00] = .ok (.st 2 0, []) ∧
  decode [0x50, 0x01] = .ok (.call 1, []) ∧
  decode [0x13] = .ok (.iret, [])

/-! ### The step -/

/-- A step runs the decoded instruction: when an instruction's bytes stand from PC on and the step
fetches, the step is the instruction's meaning at that state (spec/40_fsm_control.md R81). PC is set
by the meaning alone (R86). -/
def Obligations.StepExecutesTheInstructionAtPc : Prop :=
  ∀ (s : State) (i : Instr), Fetching s → HasBytesAtPc s (encode i) → step s = exec i s

/-- What the host places as the next instruction is decoded and executed by the very next step. This is
about the model's own tool (log 5), for every state and every word. -/
def Obligations.PlacedWordRunsAtTheNextStep : Prop :=
  ∀ (s : State) (nbits w : Nat) (i : Instr), decodeTableWord nbits w = some i →
    step (s.withFetchWord nbits w) = exec i (s.withFetchWord nbits w)

/-- The order of a step's checks (R81; spec/60_exceptions.md R164, decision D31): the PC range check
comes before a pending interrupt, an interrupt before whatever instruction stands at PC, and an operand
fetch past the memory before the register operand check and the instruction's own faults. -/
def Obligations.StepChecksInOrder : Prop :=
  ∀ s : State, s.run = .running →
    (0xFF < s.pc → step s = .next (haltedOn (.memoryFault s.pc) s)) ∧
    (∀ n, Interrupted n s → step s = interruptEntry n s) ∧
    (Fetching s → 0xFF < s.pc.toNat + operandCount (s.mem.read s.pc.toNat) →
      step s = .next (haltedOn (.memoryFault 0x100) s))

/-- An unknown opcode byte stops the machine, naming the byte and its address (spec/60_exceptions.md R161).
No operand byte is read: the outcome is the same whatever else memory holds, and even at address 0xFF.
That nothing but RUN and STATUS changes is R162's, decision D15 (the form of a fault: log 3). -/
def Obligations.UnknownOpcodeNamesTheByte : Prop :=
  ∀ (s : State) (p b : Byte), Fetching s → s.pc = zext9 p → s.load8 p = b → known b = false →
    step s = .next (haltedOn (.unknownOpcode p b) s)

/-- Every step of the machine answers a next state: the spec gives every case an effect, so the model
neither faults nor refuses (log 3, log 4: the model's form of a fault and of a halted machine). -/
def Obligations.EveryStepAnswersNext : Prop := ∀ s : State, ∃ t, step s = .next t

/-- Faults are precise: a step that leaves a fault in STATUS changed nothing but RUN and STATUS
(spec/60_exceptions.md R162, decision D15). The premise is R20's: STATUS is Idle while running. -/
def Obligations.FaultsArePrecise : Prop :=
  ∀ (s t : State) (f : Fault), s.status = .idle → step s = .next t → t.status = .faulted f →
    t = haltedOn f s

/-- The run machine's transitions (spec/40_fsm_control.md R80): a halted machine stays as it is (log 4:
the model lets it step in place); a running one stays running and Idle, or halts cleanly on a HLT, or
halts on a fault; only an accepted `run` request starts it. -/
def Obligations.RunMachineTransitions : Prop :=
  (∀ s : State, s.run = .halted → step s = .next s) ∧
  (∀ s t : State, s.run = .running → s.status = .idle → step s = .next t →
    (t.run = .running ∧ t.status = .idle) ∨
    (t.run = .halted ∧ t.status = .cleanHalt ∧ FetchesOpcode 0x01 s) ∨
    (t.run = .halted ∧ ∃ f, t.status = .faulted f)) ∧
  (∀ s t : State, runRequest s = some t → s.run = .halted ∧ t.run = .running) ∧
  (∀ (s t : State) (bytes : List Byte), load bytes s = .loaded t → t.run = s.run ∧ t.status = s.status)

/-- InvalidRegister is raised exactly by the instructions with a register operand byte above 7
(R62, R85, decision D7): every index 0 to 7 is accepted by every instruction (spec/10_state.md
R11). -/
def Obligations.InvalidRegisterExactlyWhenIllFormed : Prop :=
  ∀ (i : Instr) (s t : State), s.status = .idle → exec i s = .next t →
    ((∃ p b, t.status = .faulted (.invalidRegister p b)) ↔ i.wf = false)

/-! ### The instructions: each one's effect, its frame, its faults and its encoding

For every instruction with a register operand the statement covers every register, and the fault on
every byte that names none. The clauses on such a byte rest on decision D7, those on an operand past the
memory on decision D6, and that a fault changes nothing but RUN and STATUS is decision D15. The conclusions `exec … = .next …` say where each instruction completes. -/

/-- NOP (R87, decision D13). -/
def Obligations.NopOnlyAdvances : Prop :=
  encode .nop = [0x00] ∧ ∀ s : State, exec .nop s = .next { s with pc := s.pc + 1 }

/-- HLT (R88, decision D14). -/
def Obligations.HltHaltsCleanly : Prop :=
  encode .hlt = [0x01] ∧
  ∀ s : State, exec .hlt s = .next { s with pc := s.pc + 1, run := .halted, status := .cleanHalt }

/-- PRN a (spec/40_fsm_control.md R89): the raw register value is appended to OUT, and PC advances by 2;
nothing else changes. On a fault nothing is emitted (R85, R162; decisions D6, D7, D15). -/
def Obligations.PrnPresentsTheRegister : Prop :=
  (∀ a : Byte, encode (.prn a) = [0x47, a]) ∧
  (∀ (r : RegIdx) (s : State), exec (.prn (regByte r)) s =
    .next { s with out := s.out ++ [s.reg r], pc := s.pc + 2 }) ∧
  (∀ (a : Byte) (s : State), 7 < a → RefusesRegByte (.prn a) a s) ∧
  OperandFetchFaults 0x47 1

/-- LDI a, imm (spec/41_data_transfer.md R100): the register gets the immediate as it stands, PC advances
by exactly 3, nothing else changes; the immediate is never checked. An interrupt that is pending and
enabled afterwards is taken at the next boundary (R172, decision D23). The faults: R85, R162, decisions
D6, D7, D15. -/
def Obligations.LdiLoadsTheImmediate : Prop :=
  (∀ a imm : Byte, encode (.ldi a imm) = [0x82, a, imm]) ∧
  (∀ (r : RegIdx) (imm : Byte) (s : State), ∃ t, exec (.ldi (regByte r) imm) s = .next t ∧
    t.reg r = imm ∧ t.pc = s.pc + 3 ∧
    KeepsRegsBut [r] s t ∧ KeepsMemoryBut [] s t ∧ KeepsControl s t ∧
    ∀ n, Interrupted n t → step t = interruptEntry n t) ∧
  (∀ (a imm : Byte) (s : State), 7 < a → RefusesRegByte (.ldi a imm) a s) ∧
  OperandFetchFaults 0x82 2

/-- ST a, b (R101; opcode byte: decision D2): the cell whose address is register a's value gets register
b's value. Operand A is checked before operand B (decision D31). -/
def Obligations.StStoresWhereTheRegisterPoints : Prop :=
  (∀ a b : Byte, encode (.st a b) = [0x84, a, b]) ∧
  (∀ (ra rb : RegIdx) (s : State), ∃ t, exec (.st (regByte ra) (regByte rb)) s = .next t ∧
    storeAddress ra s = s.reg ra ∧ t.load8 (storeAddress ra s) = s.reg rb ∧ t.pc = s.pc + 3 ∧
    KeepsRegsBut [] s t ∧ KeepsMemoryBut [storeAddress ra s] s t ∧ KeepsControl s t) ∧
  (∀ (a b : Byte) (s : State), 7 < a → RefusesRegByte (.st a b) a s) ∧
  (∀ (ra : RegIdx) (b : Byte) (s : State), 7 < b → RefusesRegByte (.st (regByte ra) b) b s) ∧
  OperandFetchFaults 0x84 2

/-- ADD a, b (R111; opcode byte: decision D2): `(x[a] + x[b]) mod 256`, FL unchanged. -/
def Obligations.AddWrapsMod256 : Prop :=
  (∀ a b : Byte, encode (.add a b) = [0xA0, a, b]) ∧
  (∀ (ra rb : RegIdx) (s : State), ∃ t, exec (.add (regByte ra) (regByte rb)) s = .next t ∧
    (t.reg ra).toNat = ((s.reg ra).toNat + (s.reg rb).toNat) % 256 ∧ t.pc = s.pc + 3 ∧
    KeepsRegsBut [ra] s t ∧ KeepsMemoryBut [] s t ∧ KeepsControl s t) ∧
  (∀ (a b : Byte) (s : State), 7 < a → RefusesRegByte (.add a b) a s) ∧
  (∀ (ra : RegIdx) (b : Byte) (s : State), 7 < b → RefusesRegByte (.add (regByte ra) b) b s) ∧
  OperandFetchFaults 0xA0 2

/-- MUL a, b (R112; opcode byte: decision D2): the low 8 bits of the product, FL unchanged. -/
def Obligations.MulKeepsTheLowByte : Prop :=
  (∀ a b : Byte, encode (.mul a b) = [0xA2, a, b]) ∧
  (∀ (ra rb : RegIdx) (s : State), ∃ t, exec (.mul (regByte ra) (regByte rb)) s = .next t ∧
    (t.reg ra).toNat = ((s.reg ra).toNat * (s.reg rb).toNat) % 256 ∧ t.pc = s.pc + 3 ∧
    KeepsRegsBut [ra] s t ∧ KeepsMemoryBut [] s t ∧ KeepsControl s t) ∧
  (∀ (a b : Byte) (s : State), 7 < a → RefusesRegByte (.mul a b) a s) ∧
  (∀ (ra : RegIdx) (b : Byte) (s : State), 7 < b → RefusesRegByte (.mul (regByte ra) b) b s) ∧
  OperandFetchFaults 0xA2 2

/-- DIV a, b (R113; floor: decision D10, state on a zero divisor: decision D15): the quotient where the
divisor is not zero, DivisionByZero with nothing written where it is. -/
def Obligations.DivFloorsOrStops : Prop :=
  (∀ a b : Byte, encode (.div a b) = [0xA3, a, b]) ∧
  (∀ (ra rb : RegIdx) (s : State), s.reg rb ≠ 0 →
    ∃ t, exec (.div (regByte ra) (regByte rb)) s = .next t ∧
    (t.reg ra).toNat = (s.reg ra).toNat / (s.reg rb).toNat ∧ t.pc = s.pc + 3 ∧
    KeepsRegsBut [ra] s t ∧ KeepsMemoryBut [] s t ∧ KeepsControl s t) ∧
  (∀ (ra rb : RegIdx) (s : State), s.reg rb = 0 →
    exec (.div (regByte ra) (regByte rb)) s = .next (haltedOn .divisionByZero s)) ∧
  (∀ (a b : Byte) (s : State), 7 < a → RefusesRegByte (.div a b) a s) ∧
  (∀ (ra : RegIdx) (b : Byte) (s : State), 7 < b → RefusesRegByte (.div (regByte ra) b) b s) ∧
  OperandFetchFaults 0xA3 2

/-- INC a (R114, decision D11): `(x[a] + 1) mod 256`, FL unchanged, with none of the stack's checks. -/
def Obligations.IncWrapsMod256 : Prop :=
  (∀ a : Byte, encode (.inc a) = [0x65, a]) ∧
  (∀ (r : RegIdx) (s : State), ∃ t, exec (.inc (regByte r)) s = .next t ∧
    (t.reg r).toNat = ((s.reg r).toNat + 1) % 256 ∧ t.pc = s.pc + 2 ∧
    KeepsRegsBut [r] s t ∧ KeepsMemoryBut [] s t ∧ KeepsControl s t) ∧
  (∀ (a : Byte) (s : State), 7 < a → RefusesRegByte (.inc a) a s) ∧
  OperandFetchFaults 0x65 1

/-- PUSH a (R132, decisions D16, D19): x[7] goes down by one and the cell it then points to gets x[a],
read after the decrement, so PUSH R7 stores the decremented pointer. Refused at x[7] = 0. -/
def Obligations.PushStoresBelowTheStack : Prop :=
  (∀ a : Byte, encode (.push a) = [0x45, a]) ∧
  (∀ (r : RegIdx) (s : State), s.sp ≠ 0 → ∃ t, exec (.push (regByte r)) s = .next t ∧
    t.sp.toNat + 1 = s.sp.toNat ∧ pushSlot s = t.sp ∧ t.load8 (pushSlot s) = t.reg r ∧
    t.pc = s.pc + 2 ∧
    KeepsRegsBut [7] s t ∧ KeepsMemoryBut [pushSlot s] s t ∧ KeepsControl s t) ∧
  (∀ (r : RegIdx) (s : State), s.sp = 0 →
    exec (.push (regByte r)) s = .next (haltedOn (.stackFault .push 0x00) s)) ∧
  (∀ (a : Byte) (s : State), 7 < a → RefusesRegByte (.push a) a s) ∧
  OperandFetchFaults 0x45 1

/-- POP a (R133, decisions D16, D19): x[a] gets the top cell, then x[7], as it is after that write, goes
up by one mod 256; the cell keeps its value. Refused at or above `0xF4`. -/
def Obligations.PopLoadsTheTopOfStack : Prop :=
  (∀ a : Byte, encode (.pop a) = [0x46, a]) ∧
  (∀ (r : RegIdx) (s : State), s.sp < 0xF4 → ∃ t, exec (.pop (regByte r)) s = .next t ∧
    (r ≠ 7 → t.reg r = s.load8 s.sp ∧ t.sp = s.sp + 1) ∧
    (r = 7 → t.sp.toNat = ((s.load8 s.sp).toNat + 1) % 256) ∧
    t.pc = s.pc + 2 ∧
    KeepsRegsBut [r, 7] s t ∧ KeepsMemoryBut [] s t ∧ KeepsControl s t) ∧
  (∀ (r : RegIdx) (s : State), 0xF4 ≤ s.sp →
    exec (.pop (regByte r)) s = .next (haltedOn (.stackFault .pop s.sp) s)) ∧
  (∀ (a : Byte) (s : State), 7 < a → RefusesRegByte (.pop a) a s) ∧
  OperandFetchFaults 0x46 1

/-- CALL a (R134, decisions D16, D18, D19): the return address PC + 2 is pushed, then PC is x[a] as it is
after the push (spec/90_conflicts.md C14). A return address past the memory faults before the stack
check; an empty room below the stack faults after it. -/
def Obligations.CallPushesTheReturnAddress : Prop :=
  (∀ a : Byte, encode (.call a) = [0x50, a]) ∧
  (∀ (r : RegIdx) (s : State), s.pc.toNat + 2 ≤ 0xFF → s.sp ≠ 0 →
    ∃ t, exec (.call (regByte r)) s = .next t ∧
    t.sp.toNat + 1 = s.sp.toNat ∧ pushSlot s = t.sp ∧
    (t.load8 (pushSlot s)).toNat = s.pc.toNat + 2 ∧ t.pc.toNat = (t.reg r).toNat ∧
    KeepsRegsBut [7] s t ∧ KeepsMemoryBut [pushSlot s] s t ∧ KeepsControl s t) ∧
  (∀ (r : RegIdx) (s : State), s.pc = 0xFE →
    exec (.call (regByte r)) s = .next (haltedOn (.memoryFault 0x100) s)) ∧
  (∀ (r : RegIdx) (s : State), s.pc.toNat + 2 ≤ 0xFF → s.sp = 0 →
    exec (.call (regByte r)) s = .next (haltedOn (.stackFault .push 0x00) s)) ∧
  (∀ (a : Byte) (s : State), 7 < a → RefusesRegByte (.call a) a s) ∧
  OperandFetchFaults 0x50 1

/-- RET (R135; opcode byte: decision D2, threshold: decision D16): PC gets the top cell and x[7] goes up
by one; IE is unchanged. Refused at or above `0xF4`. -/
def Obligations.RetPopsThePc : Prop :=
  encode .ret = [0x11] ∧
  (∀ s : State, s.sp < 0xF4 → ∃ t, exec .ret s = .next t ∧
    t.pc.toNat = (s.load8 s.sp).toNat ∧ t.sp.toNat = s.sp.toNat + 1 ∧
    KeepsRegsBut [7] s t ∧ KeepsMemoryBut [] s t ∧ KeepsControl s t) ∧
  (∀ s : State, 0xF4 ≤ s.sp → exec .ret s = .next (haltedOn (.stackFault .pop s.sp) s))

/-- JMP a (R136, decision D12). -/
def Obligations.JmpSetsThePc : Prop :=
  (∀ a : Byte, encode (.jmp a) = [0x54, a]) ∧
  (∀ (r : RegIdx) (s : State), ∃ p : PcWord, p.toNat = (s.reg r).toNat ∧
    exec (.jmp (regByte r)) s = .next { s with pc := p }) ∧
  (∀ (a : Byte) (s : State), 7 < a → RefusesRegByte (.jmp a) a s) ∧
  OperandFetchFaults 0x54 1

/-- INTE a (R150, decisions D3, D22): the policy gives the new interrupt status from the old one and
x[a], both read before the write; under POLICY_NONE it is unchanged, under POLICY_LS8 bit `x[a] mod 8`
is set. IE, FL and memory are unchanged and no handler is entered. -/
def Obligations.InteAsksThePolicy : Prop :=
  (∀ a : Byte, encode (.inte a) = [0x52, a]) ∧
  (∀ (r : RegIdx) (s : State), ∃ t, exec (.inte (regByte r)) s = .next t ∧
    t.reg 6 = s.pol.inte (s.reg 6) (s.reg r) ∧
    (s.policy = .none → t.reg 6 = s.reg 6) ∧
    (s.policy = .ls8 → ∀ k : Nat, k < 8 →
      (t.reg 6).getLsbD k = ((s.reg 6).getLsbD k || k == (s.reg r).toNat % 8)) ∧
    t.pc = s.pc + 2 ∧
    KeepsRegsBut [6] s t ∧ KeepsMemoryBut [] s t ∧ KeepsControl s t) ∧
  (∀ (a : Byte) (s : State), 7 < a → RefusesRegByte (.inte a) a s) ∧
  OperandFetchFaults 0x52 1

/-- IRET (R151, decisions D17, D20): FL, x[0] to x[6] and PC come from the nine cells at x[7], x[7] goes
up by nine, IE is set. Refused whole above `0xEB`. -/
def Obligations.IretRestoresTheFrame : Prop :=
  encode .iret = [0x13] ∧
  (∀ s : State, s.sp ≤ 0xEB → ∃ t, exec .iret s = .next t ∧
    t.fl = s.load8 s.sp ∧
    (∀ r : RegIdx, r ≠ 7 → t.reg r = s.load8 (s.sp + 1 + regByte r)) ∧
    t.pc.toNat = (s.load8 (s.sp + 8)).toNat ∧ t.sp.toNat = s.sp.toNat + 9 ∧ t.ie = true ∧
    KeepsMemoryBut [] s t ∧ KeepsRun s t ∧ KeepsOutput s t) ∧
  (∀ s : State, 0xEB < s.sp → exec .iret s = .next (haltedOn (.stackFault .pop s.sp) s))

/-! ### The ALU -/

/-- The ALU function, SUB included (R110, R115; DIV and SUB: decision D10). -/
def Obligations.AluComputesItsFourOperations : Prop :=
  ∀ u v : Byte,
    (∃ w, alu .add u v = some w ∧ w.toNat = (u.toNat + v.toNat) % 256) ∧
    (∃ w, alu .sub u v = some w ∧ w.toNat = (u.toNat + 256 - v.toNat) % 256) ∧
    (∃ w, alu .mul u v = some w ∧ w.toNat = (u.toNat * v.toNat) % 256) ∧
    (v ≠ 0 → ∃ w, alu .div u v = some w ∧ w.toNat = u.toNat / v.toNat) ∧
    (v = 0 → alu .div u v = none)

/-- No ALU instruction writes FL (R116), whatever its operands and whether or not it completes. -/
def Obligations.AluWritesNoFlag : Prop :=
  ∀ (a b : Byte) (s t : State),
    (exec (.add a b) s = .next t ∨ exec (.mul a b) s = .next t ∨ exec (.div a b) s = .next t ∨
      exec (.inc a) s = .next t) → t.fl = s.fl

/-- The ALU's result is written to the first operand's register and no other, and both operands are read
before it is written: the result is that of the old values, also where both operands are one
register (spec/42_alu.md R117). That INC is the ALU's ADD with 1 is R114's, decision D11; the ALU's DIV
floors by decision D10. DIV with a zero divisor has no result to write (R113). -/
def Obligations.AluResultGoesToTheFirstOperand : Prop :=
  ∀ (ra rb : RegIdx) (s : State),
    (∃ t, exec (.add (regByte ra) (regByte rb)) s = .next t ∧
      alu .add (s.reg ra) (s.reg rb) = some (t.reg ra) ∧ KeepsRegsBut [ra] s t) ∧
    (∃ t, exec (.mul (regByte ra) (regByte rb)) s = .next t ∧
      alu .mul (s.reg ra) (s.reg rb) = some (t.reg ra) ∧ KeepsRegsBut [ra] s t) ∧
    (s.reg rb ≠ 0 → ∃ t, exec (.div (regByte ra) (regByte rb)) s = .next t ∧
      alu .div (s.reg ra) (s.reg rb) = some (t.reg ra) ∧ KeepsRegsBut [ra] s t) ∧
    (∃ t, exec (.inc (regByte ra)) s = .next t ∧
      alu .add (s.reg ra) 1 = some (t.reg ra) ∧ KeepsRegsBut [ra] s t)

/-! ### The stack -/

/-- A PUSH followed by a POP moves the value and restores x[7] (R133's quoted property, spec/95_test_vectors.md
S7; the bound `0xF4` is decision D16's). -/
def Obligations.PushThenPopMovesTheValue : Prop :=
  ∀ (r q : RegIdx) (s : State), r ≠ 7 → q ≠ 7 → s.sp ≠ 0 → s.sp ≤ 0xF4 →
    ∃ t u, exec (.push (regByte r)) s = .next t ∧ exec (.pop (regByte q)) t = .next u ∧
      u.reg q = s.reg r ∧ u.sp = s.sp ∧ u.pc = s.pc + 4 ∧ KeepsRegsBut [q] s u

/-- A RET reached with x[7] back where the CALL left it and the return cell untouched resumes right after
the CALL, with x[7] as before it (R137, spec/95_test_vectors.md S8). -/
def Obligations.CallThenRetResumesAfterTheCall : Prop :=
  ∀ (r : RegIdx) (s : State), s.pc.toNat + 2 ≤ 0xFF → s.sp ≠ 0 → s.sp ≤ 0xF4 →
    ∃ t, exec (.call (regByte r)) s = .next t ∧
      ∀ u : State, u.sp = t.sp → u.load8 t.sp = t.load8 t.sp →
        ∃ v, exec .ret u = .next v ∧ v.pc = s.pc + 2 ∧ v.sp = s.sp ∧
          KeepsRegsBut [7] u v ∧ KeepsMemoryBut [] u v ∧ KeepsControl u v

/-- The causes of a StackFault, collected (spec/60_exceptions.md R166): which step raised it, and that the
address recorded is x[7] as the step began. -/
def Obligations.StackFaultCauses : Prop :=
  ∀ (s t : State) (d : StackDirection) (a : Byte), s.status = .idle → step s = .next t →
    t.status = .faulted (.stackFault d a) →
    a = s.sp ∧
    ((d = .push ∧ ((s.sp = 0 ∧ (FetchesOpcode 0x45 s ∨ FetchesOpcode 0x50 s)) ∨
        (s.sp < 9 ∧ ∃ n, Interrupted n s))) ∨
     (d = .pop ∧ ((0xF4 ≤ s.sp ∧ (FetchesOpcode 0x46 s ∨ FetchesOpcode 0x11 s)) ∨
        (0xEB < s.sp ∧ FetchesOpcode 0x13 s))))

/-! ### Interrupts -/

/-- Interrupt entry (spec/60_exceptions.md R173, R174; decisions D17, D20, D24): the frame of nine cells,
the acknowledged status, the new PC read from the memory as the pushes leave it, IE cleared, and
nothing else changed. For every policy. -/
def Obligations.InterruptEntryBuildsTheFrame : Prop :=
  ∀ (n : IntNum) (s : State), Interrupted n s → 9 ≤ s.sp →
    ∃ t, step s = .next t ∧
      t.load8 (s.sp - 9) = s.fl ∧
      (∀ r : RegIdx, r ≠ 6 → r ≠ 7 → t.load8 (s.sp - 8 + regByte r) = s.reg r) ∧
      t.load8 (s.sp - 2) = s.pol.ack (s.reg 6) n ∧
      (t.load8 (s.sp - 1)).toNat = s.pc.toNat ∧
      t.reg 6 = s.pol.ack (s.reg 6) n ∧ t.sp = s.sp - 9 ∧ KeepsRegsBut [6, 7] s t ∧
      t.ie = false ∧ t.fl = s.fl ∧ t.pc.toNat = (s.pol.vector n t.load8).toNat ∧
      KeepsMemoryBut [s.sp - 9, s.sp - 8, s.sp - 7, s.sp - 6, s.sp - 5, s.sp - 4, s.sp - 3, s.sp - 2,
        s.sp - 1] s t ∧
      KeepsRun s t ∧ KeepsOutput s t

/-- An entry without room for nine bytes is refused whole: IE, x[6], memory and PC are as before
(R163, R180). -/
def Obligations.InterruptEntryWithoutRoomFaults : Prop :=
  ∀ (n : IntNum) (s : State), Interrupted n s → s.sp < 9 →
    step s = .next (haltedOn (.stackFault .push s.sp) s)

/-- Interrupts are precise (R181): an IRET that finds the frame as the entry left it, in whatever state
the handler otherwise made, restores x[0] to x[5], FL and x[7] as the interrupted program had them, the
acknowledged status, and PC at the instruction not yet executed, with acceptance enabled. The premise
on x[7] is decision D16's: nothing is popped at or above `0xF4`, so after an entry from above it IRET
faults, as IretRestoresTheFrame says. The entry's order is decisions D17, D20, D24. -/
def Obligations.IretResumesTheInterruptedProgram : Prop :=
  ∀ (n : IntNum) (s t : State), Interrupted n s → 9 ≤ s.sp → s.sp ≤ 0xF4 → step s = .next t →
    ∀ u : State, u.sp = t.sp → (∀ k : Byte, k < 9 → u.load8 (t.sp + k) = t.load8 (t.sp + k)) →
      ∃ v, exec .iret u = .next v ∧
        v.fl = s.fl ∧ (∀ r : RegIdx, r ≠ 6 → v.reg r = s.reg r) ∧
        v.reg 6 = s.pol.ack (s.reg 6) n ∧ v.pc = s.pc ∧ v.ie = s.ie ∧
        KeepsMemoryBut [] u v ∧ KeepsRun u v ∧ KeepsOutput u v

/-- IRET, not RET, is the return from an interrupt (R175): IRET restores FL, x[0] to x[6] and PC from the
frame, raises x[7] by nine and sets IE; a RET right after an entry pops one byte, the saved FL, into
PC. -/
def Obligations.RetIsNoReturnFromAnInterrupt : Prop :=
  (∀ s : State, s.sp ≤ 0xEB → ∃ t, exec .iret s = .next t ∧ t.fl = s.load8 s.sp ∧
    (∀ r : RegIdx, r ≠ 7 → t.reg r = s.load8 (s.sp + 1 + regByte r)) ∧
    t.pc.toNat = (s.load8 (s.sp + 8)).toNat ∧ t.sp.toNat = s.sp.toNat + 9 ∧ t.ie = true) ∧
  ∀ (n : IntNum) (s t : State), Interrupted n s → 9 ≤ s.sp → s.sp ≤ 0xF4 → step s = .next t →
    ∃ v, exec .ret t = .next v ∧ v.pc.toNat = s.fl.toNat ∧ v.sp.toNat = t.sp.toNat + 1 ∧ v.ie = false

/-- Nothing changes IE but an entry, which clears it, and an IRET, which sets it; and while IE is 0 the
machine accepts no interrupt and is at no entry, whatever x[5] and x[6] hold, so a handler is never
interrupted (spec/10_state.md R18, spec/60_exceptions.md R172, R179; decisions D20, D23). -/
def Obligations.AcceptanceChangesOnlyByEntryAndIret : Prop :=
  (∀ s t : State, step s = .next t → t.ie ≠ s.ie →
    (t.ie = true ∧ FetchesOpcode 0x13 s) ∨ (t.ie = false ∧ ∃ n, Interrupted n s)) ∧
  ∀ s : State, s.ie = false → acceptedInterrupt s = none ∧ ∀ n, boundary s ≠ .enters n

/-- Under POLICY_NONE nothing is ever delivered: no boundary is an entry, and in range every step fetches
(R177, decision D21). -/
def Obligations.PolicyNoneDeliversNothing : Prop :=
  (∀ s : State, s.policy = .none → acceptedInterrupt s = none ∧ ∀ n, boundary s ≠ .enters n) ∧
  ∀ s : State, s.policy = .none → s.run = .running → s.pc ≤ 0xFF → Fetching s ∧ ∀ n, ¬ Interrupted n s

/-- The four functions of POLICY_LS8, bit by bit (R178): the lowest bit set in both registers is selected;
acknowledging clears its bit; INTE sets bit `v mod 8`; the vector is the cell `0xF8 + n`. -/
def Obligations.PolicyLs8Functions : Prop :=
  (∀ (im is : Byte) (n : IntNum), (policyOf .ls8).select im is = some n ↔
    (im.getLsbD n.val = true ∧ is.getLsbD n.val = true ∧
      ∀ m : IntNum, m < n → (im.getLsbD m.val && is.getLsbD m.val) = false)) ∧
  (∀ im is : Byte, (policyOf .ls8).select im is = none ↔ im &&& is = 0) ∧
  (∀ (is : Byte) (n k : IntNum),
    ((policyOf .ls8).ack is n).getLsbD k.val = (is.getLsbD k.val && k != n)) ∧
  (∀ (is v : Byte) (k : IntNum),
    ((policyOf .ls8).inte is v).getLsbD k.val = (is.getLsbD k.val || k.val == v.toNat % 8)) ∧
  (∀ (n : IntNum) (M : Byte → Byte), ∃ a : Byte, a.toNat = 0xF8 + n.val ∧
    (policyOf .ls8).vector n M = M a)

/-! ### Frames over all instructions -/

/-- No instruction writes a register outside those spec/10_state.md R12 lists for it. -/
def Obligations.RegistersWrittenAreThoseListed : Prop :=
  ∀ (i : Instr) (s t : State), exec i s = .next t →
    ∀ r : RegIdx, regByte r ∉ writesRegs i → t.reg r = s.reg r

/-- No instruction writes a cell outside those spec/20_memory.md R46 lists for it: ST's address, and the
cell below the stack pointer for PUSH and CALL. -/
def Obligations.CellsWrittenAreThoseListed : Prop :=
  ∀ (i : Instr) (s t : State), exec i s = .next t → KeepsMemoryBut (storesTo i s) s t

/-- FL is written by IRET alone (spec/10_state.md R17). -/
def Obligations.FlagsChangeOnlyByIret : Prop :=
  ∀ s t : State, step s = .next t → t.fl ≠ s.fl → FetchesOpcode 0x13 s

/-- FL is read by interrupt entry alone (R17): in a step that fetches anything but IRET, another value in
FL makes no difference but that it stays there. -/
def Obligations.FlagsAreReadOnlyByEntry : Prop :=
  ∀ (s t : State) (v : Byte), Fetching s → s.mem.read s.pc.toNat ≠ 0x13 → step s = .next t →
    step { s with fl := v } = .next { t with fl := v }

/-- The print port carries one value per PRN and nothing else writes it (spec/10_state.md R28, decision
D29). -/
def Obligations.OutputGrowsOnlyByPrn : Prop :=
  ∀ s t : State, step s = .next t → t.out ≠ s.out →
    ∃ r : RegIdx, FetchesOpcode 0x47 s ∧ s.mem.read (s.pc.toNat + 1) = regByte r ∧
      t.out = s.out ++ [s.reg r]

/-- The policy is fixed for the life of the machine (spec/10_state.md R23; spec/60_exceptions.md R176):
no step and no host operation changes it. It is a field of the model's own (log 1). -/
def Obligations.PolicyNeverChanges : Prop :=
  (∀ s t : State, step s = .next t → t.policy = s.policy) ∧
  (∀ s t : State, runRequest s = some t → t.policy = s.policy) ∧
  (∀ (s t : State) (bytes : List Byte), load bytes s = .loaded t → t.policy = s.policy) ∧
  ∀ s : State, (resetRequest s).policy = s.policy

/-- Everything outside the interrupt path is independent of the policy (spec/00_scope.md R7, decision
D21): a step that fetches anything but INTE under two policies does the same under both. -/
def Obligations.PolicyMattersOnlyToInterrupts : Prop :=
  ∀ (s t : State) (p : PolicyId), Fetching s → Fetching { s with policy := p } →
    s.mem.read s.pc.toNat ≠ 0x52 → step s = .next t →
    step { s with policy := p } = .next { t with policy := p }

/-! ### Memory -/

/-- A read returns the value of the most recent write to that address, or 0x00 if there has been none
since reset (R45), for any sequence of writes. -/
def Obligations.ReadReturnsTheMostRecentWrite : Prop :=
  ∀ (writes : List (Byte × Byte)) (a : Byte),
    (writes.foldl (fun s w => s.store8 w.1 w.2) State.reset).load8 a =
      ((writes.reverse.find? (fun w => w.1 == a)).map (·.2)).getD 0x00

/-- Memories in canonical form that read alike are equal data (log 9: the model's representation of
R24's 256 cells). -/
def Obligations.CanonicalMemoriesAreEqualData : Prop :=
  ∀ m m' : Memory, m.wf → m'.wf → (∀ a : Byte, m.read a.toNat = m'.read a.toNat) → m = m'

/-! ### Reset, the host, and the invariant -/

/-- The state after reset (R30, R200; the zeros of x[0..6] and FL, and PC, IE, STATUS, OUT: decision
D8). -/
def Obligations.ResetLeavesTheStatedValues : Prop :=
  (∀ r : RegIdx, r ≠ 7 → State.reset.reg r = 0x00) ∧ State.reset.sp = 0xF4 ∧ State.reset.pc = 0x000 ∧
  State.reset.fl = 0x00 ∧ State.reset.ie = true ∧ (∀ a : Byte, State.reset.load8 a = 0x00) ∧
  State.reset.run = .halted ∧ State.reset.status = .idle ∧ State.reset.out = []

/-- `load` (R204, decision D27): refused while running, refused whole when longer than the memory,
otherwise the bytes stand from address 0 on and nothing else changes. -/
def Obligations.LoadWritesFromAddressZero : Prop :=
  ∀ (bytes : List Byte) (s : State),
    (s.run = .running → load bytes s = .refusedRunning) ∧
    (s.run = .halted → 256 < bytes.length → load bytes s = .programTooLarge) ∧
    (s.run = .halted → bytes.length ≤ 256 → ∃ m : Memory, load bytes s = .loaded { s with mem := m } ∧
      (∀ k : Nat, ∀ h : k < bytes.length, m.read k = bytes[k]) ∧
      ∀ k : Nat, bytes.length ≤ k → m.read k = s.mem.read k)

/-- `run` (R205, decision D26): accepted from Idle and CleanHalt, continuing at the PC as it is; refused
while running and after any fault. -/
def Obligations.RunIsRefusedAfterAFault : Prop :=
  ∀ s : State,
    (s.run = .halted → s.status = .idle ∨ s.status = .cleanHalt →
      runRequest s = some { s with run := .running, status := .idle }) ∧
    (∀ f, s.status = .faulted f → runRequest s = none) ∧
    (s.run = .running → runRequest s = none)

/-- The trace port shows the bytes at PC, PC + 1 and PC + 2, absent past the memory, and the registers
(spec/10_state.md R29, decision D30). -/
def Obligations.TraceShowsTheBoundary : Prop :=
  ∀ s : State, (trace s).pc = s.pc ∧ (∀ r : RegIdx, (trace s).regs[r.val] = s.reg r) ∧
    (trace s).bytes.length = 3 ∧
    ∀ k : Nat, k < 3 → (trace s).bytes[k]? =
      some (if s.pc.toNat + k ≤ 0xFF then some (s.mem.read (s.pc.toNat + k)) else none)

/-- A run ends at the first step that halts the machine (R90): the state and the result are then final,
however much longer one waits, and a machine that has not ended is still Running (R206). That a step
leaves a halted machine as it is, is the model's form (log 4). -/
def Obligations.RunEndsAtTheFirstHalt : Prop :=
  ∀ (k : Nat) (s : State), s.run = .running →
    ((runFor k s).run = .halted → ∀ j : Nat, runFor (k + j) s = runFor k s) ∧
    ((runFor k s).run = .running → ∀ j : Nat, j ≤ k → (runFor j s).run = .running)

/-- The numeric codes of STATUS and of a direction (spec/10_state.md R21, decision D33). -/
def Obligations.StatusCodes : Prop :=
  Status.idle.code = 0 ∧ Status.cleanHalt.code = 1 ∧ (Status.faulted .divisionByZero).code = 2 ∧
  (∀ p b, (Status.faulted (.unknownOpcode p b)).code = 3) ∧
  (∀ d a, (Status.faulted (.stackFault d a)).code = 4) ∧
  (Status.faulted .unsupportedAluOperation).code = 5 ∧
  (∀ a, (Status.faulted (.memoryFault a)).code = 6) ∧
  (∀ p b, (Status.faulted (.invalidRegister p b)).code = 7) ∧
  StackDirection.push.code = 0 ∧ StackDirection.pop.code = 1

/-- The reset state meets the invariant. -/
def Obligations.ResetMeetsTheInvariant : Prop := State.reset.Inv

/-- Every step keeps the invariant: canonical memory, PC at most `0x100`, STATUS Idle while running, and
STATUS true to its cause, so that UnsupportedAluOperation is never recorded and the only out-of-range
address is `0x100` (R14, R20, R118, R166, R167). -/
def Obligations.EveryStepKeepsTheInvariant : Prop :=
  ∀ s t : State, s.Inv → step s = .next t → t.Inv

/-- Every host operation keeps the invariant (R200, R204, R205). -/
def Obligations.HostOperationsKeepTheInvariant : Prop :=
  (∀ (s t : State) (bytes : List Byte), s.Inv → load bytes s = .loaded t → t.Inv) ∧
  (∀ s t : State, s.Inv → runRequest s = some t → t.Inv) ∧
  ∀ s : State, (resetRequest s).Inv
end

