-- ==== Sys2Proof/Laws/State.lean ====
section
/-! SUPPORT. What each update of the state does to each field, and to the registers and cells read
through the accessors. -/

namespace Sys2Proof.Machine

section
variable (s : State) (r q : RegIdx) (v : Byte) (p : PcWord) (n : Nat) (st : Status)

/-! ### setReg -/

@[simp] theorem State.reg_setReg : (s.setReg r v).reg q = if q = r then v else s.reg q := by
  simp [State.reg, State.setReg, Vector.getElem_set, Fin.ext_iff, eq_comm]

@[simp] theorem State.pc_setReg : (s.setReg r v).pc = s.pc := rfl
@[simp] theorem State.fl_setReg : (s.setReg r v).fl = s.fl := rfl
@[simp] theorem State.ie_setReg : (s.setReg r v).ie = s.ie := rfl
@[simp] theorem State.mem_setReg : (s.setReg r v).mem = s.mem := rfl
@[simp] theorem State.run_setReg : (s.setReg r v).run = s.run := rfl
@[simp] theorem State.status_setReg : (s.setReg r v).status = s.status := rfl
@[simp] theorem State.out_setReg : (s.setReg r v).out = s.out := rfl
@[simp] theorem State.policy_setReg : (s.setReg r v).policy = s.policy := rfl

/-! ### setPc -/

@[simp] theorem State.reg_setPc : (s.setPc p).reg q = s.reg q := rfl
@[simp] theorem State.pc_setPc : (s.setPc p).pc = p := rfl
@[simp] theorem State.fl_setPc : (s.setPc p).fl = s.fl := rfl
@[simp] theorem State.ie_setPc : (s.setPc p).ie = s.ie := rfl
@[simp] theorem State.mem_setPc : (s.setPc p).mem = s.mem := rfl
@[simp] theorem State.run_setPc : (s.setPc p).run = s.run := rfl
@[simp] theorem State.status_setPc : (s.setPc p).status = s.status := rfl
@[simp] theorem State.out_setPc : (s.setPc p).out = s.out := rfl
@[simp] theorem State.policy_setPc : (s.setPc p).policy = s.policy := rfl

/-! ### advance -/

@[simp] theorem State.reg_advance : (s.advance n).reg q = s.reg q := rfl
@[simp] theorem State.pc_advance : (s.advance n).pc = s.pc + BitVec.ofNat 9 n := rfl
@[simp] theorem State.fl_advance : (s.advance n).fl = s.fl := rfl
@[simp] theorem State.ie_advance : (s.advance n).ie = s.ie := rfl
@[simp] theorem State.mem_advance : (s.advance n).mem = s.mem := rfl
@[simp] theorem State.run_advance : (s.advance n).run = s.run := rfl
@[simp] theorem State.status_advance : (s.advance n).status = s.status := rfl
@[simp] theorem State.out_advance : (s.advance n).out = s.out := rfl
@[simp] theorem State.policy_advance : (s.advance n).policy = s.policy := rfl

/-! ### store8 -/

@[simp] theorem State.reg_store8 (a : Byte) : (s.store8 a v).reg q = s.reg q := rfl
@[simp] theorem State.pc_store8 (a : Byte) : (s.store8 a v).pc = s.pc := rfl
@[simp] theorem State.fl_store8 (a : Byte) : (s.store8 a v).fl = s.fl := rfl
@[simp] theorem State.ie_store8 (a : Byte) : (s.store8 a v).ie = s.ie := rfl
@[simp] theorem State.mem_store8 (a : Byte) : (s.store8 a v).mem = s.mem.write a.toNat v := rfl
@[simp] theorem State.run_store8 (a : Byte) : (s.store8 a v).run = s.run := rfl
@[simp] theorem State.status_store8 (a : Byte) : (s.store8 a v).status = s.status := rfl
@[simp] theorem State.out_store8 (a : Byte) : (s.store8 a v).out = s.out := rfl
@[simp] theorem State.policy_store8 (a : Byte) : (s.store8 a v).policy = s.policy := rfl

/-! ### emitPrint -/

@[simp] theorem State.reg_emitPrint : (s.emitPrint v).reg q = s.reg q := rfl
@[simp] theorem State.pc_emitPrint : (s.emitPrint v).pc = s.pc := rfl
@[simp] theorem State.fl_emitPrint : (s.emitPrint v).fl = s.fl := rfl
@[simp] theorem State.ie_emitPrint : (s.emitPrint v).ie = s.ie := rfl
@[simp] theorem State.mem_emitPrint : (s.emitPrint v).mem = s.mem := rfl
@[simp] theorem State.run_emitPrint : (s.emitPrint v).run = s.run := rfl
@[simp] theorem State.status_emitPrint : (s.emitPrint v).status = s.status := rfl
@[simp] theorem State.out_emitPrint : (s.emitPrint v).out = s.out ++ [v] := rfl
@[simp] theorem State.policy_emitPrint : (s.emitPrint v).policy = s.policy := rfl

/-! ### haltWith -/

@[simp] theorem State.reg_haltWith : (s.haltWith st).reg q = s.reg q := rfl
@[simp] theorem State.pc_haltWith : (s.haltWith st).pc = s.pc := rfl
@[simp] theorem State.fl_haltWith : (s.haltWith st).fl = s.fl := rfl
@[simp] theorem State.ie_haltWith : (s.haltWith st).ie = s.ie := rfl
@[simp] theorem State.mem_haltWith : (s.haltWith st).mem = s.mem := rfl
@[simp] theorem State.run_haltWith : (s.haltWith st).run = .halted := rfl
@[simp] theorem State.status_haltWith : (s.haltWith st).status = st := rfl
@[simp] theorem State.out_haltWith : (s.haltWith st).out = s.out := rfl
@[simp] theorem State.policy_haltWith : (s.haltWith st).policy = s.policy := rfl

/-! ### The accessors built on these -/

@[simp] theorem State.sp_setPc : (s.setPc p).sp = s.sp := rfl
@[simp] theorem State.sp_advance : (s.advance n).sp = s.sp := rfl
@[simp] theorem State.sp_store8 (a : Byte) : (s.store8 a v).sp = s.sp := rfl
@[simp] theorem State.sp_emitPrint : (s.emitPrint v).sp = s.sp := rfl
@[simp] theorem State.sp_haltWith : (s.haltWith st).sp = s.sp := rfl
@[simp] theorem State.sp_setReg : (s.setReg r v).sp = if spIdx = r then v else s.sp :=
  State.reg_setReg s r spIdx v

@[simp] theorem State.load8_setReg (a : Byte) : (s.setReg r v).load8 a = s.load8 a := rfl
@[simp] theorem State.load8_setPc (a : Byte) : (s.setPc p).load8 a = s.load8 a := rfl
@[simp] theorem State.load8_advance (a : Byte) : (s.advance n).load8 a = s.load8 a := rfl
@[simp] theorem State.load8_emitPrint (a : Byte) : (s.emitPrint v).load8 a = s.load8 a := rfl
@[simp] theorem State.load8_haltWith (a : Byte) : (s.haltWith st).load8 a = s.load8 a := rfl

@[simp] theorem State.pol_setReg : (s.setReg r v).pol = s.pol := rfl
@[simp] theorem State.pol_setPc : (s.setPc p).pol = s.pol := rfl
@[simp] theorem State.pol_store8 (a : Byte) : (s.store8 a v).pol = s.pol := rfl

/-- SP is register 7. -/
theorem State.sp_eq_reg : s.sp = s.reg 7 := rfl

/-- Two states with equal fields are equal, registers being compared one by one. -/
theorem State.ext_fields {s t : State} (hr : ∀ q : RegIdx, s.reg q = t.reg q) (hpc : s.pc = t.pc)
    (hfl : s.fl = t.fl) (hie : s.ie = t.ie) (hmem : s.mem = t.mem) (hrun : s.run = t.run)
    (hst : s.status = t.status) (hout : s.out = t.out) (hpol : s.policy = t.policy) : s = t := by
  have hregs : s.regs = t.regs := by
    apply Vector.ext
    intro i h
    exact hr ⟨i, h⟩
  cases s; cases t
  simp_all

end

end Sys2Proof.Machine
end

