-- ==== Sys2Proof/Laws/Memory.lean ====
section
/-! SUPPORT. The laws of memory: a read after a write, and the canonical form that every operation
keeps. -/

namespace Sys2Proof.Machine

@[simp] theorem Memory.read_nil (a : Nat) : Memory.read [] a = Memory.unlisted := rfl

theorem Memory.read_put (m : Memory) (a b : Nat) (v : Byte) :
    (m.put a v).read b = if b = a then v else m.read b := by
  induction m with
  | nil => simp [Memory.put, Memory.read]
  | cons c rest ih =>
    obtain ⟨k, w⟩ := c
    by_cases hlt : a < k
    · simp [Memory.put, Memory.read, hlt]
    · by_cases heq : a = k
      · subst heq
        by_cases hb : b = a <;> simp [Memory.put, Memory.read, hb]
      · by_cases hb : b = k
        · subst hb
          simp [Memory.put, Memory.read, hlt, heq, Ne.symm heq]
        · simp [Memory.put, Memory.read, hlt, heq, hb, ih]

theorem Memory.read_erase (m : Memory) (a b : Nat) :
    Memory.read (m.filter (fun c => c.1 != a)) b = if b = a then Memory.unlisted else m.read b := by
  induction m with
  | nil => simp
  | cons c rest ih =>
    obtain ⟨k, w⟩ := c
    by_cases hk : k = a
    · subst hk
      by_cases hb : b = k <;> simp [Memory.read, ih, hb]
      simpa [hb] using ih
    · by_cases hb : b = k
      · subst hb
        simp [Memory.read, hk]
      · simp [Memory.read, ih, hk, hb]

/-- A read after a write: the value written at that address, the old value anywhere else. -/
@[simp] theorem Memory.read_write (m : Memory) (a b : Nat) (v : Byte) :
    (m.write a v).read b = if b = a then v else m.read b := by
  by_cases hv : v = Memory.unlisted
  · simp [Memory.write, hv, Memory.read_erase]
  · simp [Memory.write, hv, Memory.read_put]

@[simp] theorem State.load8_store8 (s : State) (a b v : Byte) :
    (s.store8 a v).load8 b = if b = a then v else s.load8 b := by
  simp [State.load8, State.store8, BitVec.toNat_inj]

/-- Every cell of the result of `put` is the new one or an old one. -/
theorem Memory.mem_put {m : Memory} {a : Nat} {v : Byte} {c : Host.Cell} (h : c ∈ m.put a v) :
    c = (a, v) ∨ c ∈ m := by
  induction m with
  | nil => simpa [Memory.put] using h
  | cons d rest ih =>
    obtain ⟨k, w⟩ := d
    simp only [Memory.put] at h
    split at h
    · simpa using h
    · split at h
      · rcases List.mem_cons.mp h with h | h
        · exact .inl h
        · exact .inr (List.mem_cons_of_mem _ h)
      · rcases List.mem_cons.mp h with h | h
        · exact .inr (h ▸ List.mem_cons_self)
        · exact (ih h).imp_right (List.mem_cons_of_mem _)

theorem Memory.put_rising {m : Memory} (a : Nat) (v : Byte)
    (h : m.Pairwise (fun c d => c.1 < d.1)) :
    (m.put a v).Pairwise (fun c d => c.1 < d.1) := by
  induction m with
  | nil => simp [Memory.put]
  | cons d rest ih =>
    obtain ⟨k, w⟩ := d
    obtain ⟨hk, hrest⟩ := List.pairwise_cons.mp h
    simp only [Memory.put]
    split
    · rename_i hlt
      refine List.pairwise_cons.mpr ⟨fun c hc => ?_, h⟩
      rcases List.mem_cons.mp hc with rfl | hc
      · exact hlt
      · exact Nat.lt_trans hlt (hk c hc)
    · split
      · rename_i heq
        exact List.pairwise_cons.mpr ⟨fun c hc => heq ▸ hk c hc, hrest⟩
      · rename_i hlt hne
        refine List.pairwise_cons.mpr ⟨fun c hc => ?_, ih hrest⟩
        rcases Memory.mem_put hc with rfl | hc
        · simp; omega
        · exact hk c hc

/-- A write inside the memory keeps the canonical form. -/
theorem Memory.wf_write {m : Memory} {a : Nat} (v : Byte) (ha : a < Config.memSize) (h : m.wf) :
    (m.write a v).wf := by
  unfold Memory.write
  split
  · exact ⟨h.1.filter _, fun c hc => h.2 c (List.mem_filter.mp hc).1⟩
  · rename_i hv
    refine ⟨Memory.put_rising a v h.1, fun c hc => ?_⟩
    rcases Memory.mem_put hc with rfl | hc
    · exact ⟨ha, hv⟩
    · exact h.2 c hc

/-- A store at an 8-bit address keeps the canonical form. -/
theorem State.wf_store8 {s : State} (a v : Byte) (h : s.mem.wf) : (s.store8 a v).mem.wf :=
  Memory.wf_write v a.isLt h

/-- Writing consecutive cells inside the memory keeps the canonical form. -/
theorem Memory.wf_writeList {m : Memory} {a : Nat} (vs : List Byte)
    (ha : a + vs.length ≤ Config.memSize) (h : m.wf) : (m.writeList a vs).wf := by
  induction vs generalizing m a with
  | nil => exact h
  | cons v vs ih =>
    simp only [List.length_cons] at ha
    exact ih (by omega) (Memory.wf_write v (by omega) h)

/-- Reading after writing consecutive cells: the byte written there, the old value anywhere else. -/
theorem Memory.read_writeList (m : Memory) (a b : Nat) (vs : List Byte) :
    (m.writeList a vs).read b = if h : a ≤ b ∧ b - a < vs.length then vs[b - a] else m.read b := by
  induction vs generalizing m a with
  | nil => simp [Memory.writeList]
  | cons v vs ih =>
    simp only [Memory.writeList, ih, Memory.read_write, List.length_cons]
    by_cases hb : b = a
    · subst hb
      simp
    · by_cases hle : a + 1 ≤ b
      · have e : b - a = (b - (a + 1)) + 1 := by omega
        by_cases hin : b - (a + 1) < vs.length
        · have h1 : a + 1 ≤ b ∧ b - (a + 1) < vs.length := ⟨hle, hin⟩
          have h2 : a ≤ b ∧ b - a < vs.length + 1 := by omega
          simp only [h1, h2, and_self, dite_true]
          simp [e]
        · have h1 : ¬ (a + 1 ≤ b ∧ b - (a + 1) < vs.length) := by omega
          have h2 : ¬ (a ≤ b ∧ b - a < vs.length + 1) := by omega
          rw [dif_neg h1, dif_neg h2, if_neg hb]
      · have h1 : ¬ (a + 1 ≤ b ∧ b - (a + 1) < vs.length) := by omega
        have h2 : ¬ (a ≤ b ∧ b - a < vs.length + 1) := by omega
        rw [dif_neg h1, dif_neg h2, if_neg hb]

end Sys2Proof.Machine
end

