-- ==== Sys2Proof/Laws/Ops.lean ====
section
/-! SUPPORT. For each shared operation, what it can do, said once: the operand checks, the two halves of
a push and a pop, the ALU write-back, interrupt entry and return. -/

namespace Sys2Proof.Machine

/-! ### Widths -/

@[simp] theorem toNat_zext9 (v : Byte) : (zext9 v).toNat = v.toNat := by
  simp [zext9]
  have := v.isLt
  omega

theorem toNat_low8 {p : PcWord} (h : p ≤ 0xFF) : (low8 p).toNat = p.toNat := by
  have h' : p.toNat ≤ 255 := h
  simp [low8]
  omega

theorem zext9_low8 {p : PcWord} (h : p ≤ 0xFF) : zext9 (low8 p) = p :=
  BitVec.eq_of_toNat_eq (by rw [toNat_zext9, toNat_low8 h])

theorem low8_zext9 (v : Byte) : low8 (zext9 v) = v := by
  apply BitVec.eq_of_toNat_eq
  have h : v.toNat < 256 := v.isLt
  simp [low8, Nat.mod_eq_of_lt h]

/-! ### Raising a fault -/

/-- A fault's next state differs in RUN and STATUS alone. -/
theorem raise_eq (f : Fault) (s : State) : raise f s = .next (haltedOn f s) := rfl

@[simp] theorem reg_haltedOn (f : Fault) (s : State) (r : RegIdx) : (haltedOn f s).reg r = s.reg r := rfl
@[simp] theorem load8_haltedOn (f : Fault) (s : State) (a : Byte) :
    (haltedOn f s).load8 a = s.load8 a := rfl
@[simp] theorem sp_haltedOn (f : Fault) (s : State) : (haltedOn f s).sp = s.sp := rfl

/-! ### Register operands -/

@[simp] theorem toNat_regByte (r : RegIdx) : (regByte r).toNat = r.val := by
  simp [regByte]; omega

@[simp] theorem regOperand_regByte (r : RegIdx) : regOperand (regByte r) = some r := by
  have h : (regByte r).toNat < 8 := by rw [toNat_regByte]; exact r.isLt
  rw [regOperand, dif_pos h]
  exact congrArg some (Fin.ext (toNat_regByte r))

@[simp] theorem isRegByte_regByte (r : RegIdx) : isRegByte (regByte r) = true := by
  simp [isRegByte]

theorem regByte_injective {r q : RegIdx} (h : regByte r = regByte q) : r = q :=
  Fin.ext (by rw [← toNat_regByte, ← toNat_regByte, h])

/-- A byte names a register, or it is above 7. -/
theorem regOperand_cases (b : Byte) :
    (∃ r, b = regByte r ∧ regOperand b = some r) ∨ (isRegByte b = false ∧ regOperand b = none) := by
  by_cases h : b.toNat < 8
  · exact .inl ⟨⟨b.toNat, h⟩, BitVec.eq_of_toNat_eq (by rw [toNat_regByte]), by simp [regOperand, h]⟩
  · exact .inr ⟨by simpa [isRegByte] using h, by simp [regOperand, h]⟩

theorem isRegByte_eq_false_iff (b : Byte) : isRegByte b = false ↔ 7 < b := by
  simp only [isRegByte, decide_eq_false_iff_not, BitVec.lt_def]
  exact Nat.not_lt

@[simp] theorem withReg_regByte (r : RegIdx) (s : State) (k : RegIdx → Outcome) :
    withReg (regByte r) s k = k r := by
  simp [withReg]

/-- The register check either goes on with the register named, or raises InvalidRegister. -/
theorem withReg_cases (a : Byte) (s : State) (k : RegIdx → Outcome) :
    (∃ r, a = regByte r ∧ withReg a s k = k r) ∨
    (isRegByte a = false ∧ withReg a s k = .next (haltedOn (.invalidRegister (low8 s.pc) a) s)) := by
  rcases regOperand_cases a with ⟨r, ha, hr⟩ | ⟨ha, hr⟩
  · exact .inl ⟨r, ha, by simp [withReg, hr]⟩
  · exact .inr ⟨ha, by simp [withReg, hr, raise_eq]⟩

theorem withReg_of_above {a : Byte} (h : 7 < a) (s : State) (k : RegIdx → Outcome) :
    withReg a s k = .next (haltedOn (.invalidRegister (low8 s.pc) a) s) := by
  rcases withReg_cases a s k with ⟨r, rfl, _⟩ | ⟨_, h'⟩
  · rw [← isRegByte_eq_false_iff, isRegByte_regByte] at h; cases h
  · exact h'

@[simp] theorem withRegs_regByte (r q : RegIdx) (s : State) (k : RegIdx → RegIdx → Outcome) :
    withRegs (regByte r) (regByte q) s k = k r q := by
  simp [withRegs]

/-- Two register operands: both named, or the first that is not is reported. -/
theorem withRegs_cases (a b : Byte) (s : State) (k : RegIdx → RegIdx → Outcome) :
    (∃ ra rb, a = regByte ra ∧ b = regByte rb ∧ withRegs a b s k = k ra rb) ∨
    (isRegByte a = false ∧ withRegs a b s k = .next (haltedOn (.invalidRegister (low8 s.pc) a) s)) ∨
    (isRegByte a = true ∧ isRegByte b = false ∧
      withRegs a b s k = .next (haltedOn (.invalidRegister (low8 s.pc) b) s)) := by
  rcases withReg_cases a s (fun ra => withReg b s fun rb => k ra rb) with ⟨ra, rfl, h⟩ | h
  · rcases withReg_cases b s (fun rb => k ra rb) with ⟨rb, rfl, h'⟩ | ⟨hb, h'⟩
    · exact .inl ⟨ra, rb, rfl, rfl, h.trans h'⟩
    · exact .inr (.inr ⟨by simp, hb, h.trans h'⟩)
  · exact .inr (.inl h)

/-! ### The stack -/

/-- The first half of a push: refused at x[7] = 0, else x[7] goes down by one. -/
theorem growStack_cases (s : State) :
    (s.sp = 0 ∧ growStack s = .error (.stackFault .push s.sp)) ∨
    (s.sp ≠ 0 ∧ growStack s = .ok (s.setReg 7 (pushSlot s))) := by
  by_cases h : s.sp = 0
  · exact .inl ⟨h, by rw [growStack, if_pos h]⟩
  · exact .inr ⟨h, by rw [growStack, if_neg h]; rfl⟩

/-- The first half of a pop: refused at or above `SP_INIT`, else the top cell. -/
theorem peekTop_cases (s : State) :
    (0xF4 ≤ s.sp ∧ peekTop s = .error (.stackFault .pop s.sp)) ∨
    (s.sp < 0xF4 ∧ peekTop s = .ok (s.load8 s.sp)) := by
  by_cases h : Config.spInit ≤ s.sp
  · exact .inl ⟨h, by simp [peekTop, h]⟩
  · exact .inr ⟨BitVec.not_le.mp h, by simp [peekTop, h]⟩

/-! ### The ALU's write-back -/

/-- The write-back either writes the ALU's result to the register, or raises DivisionByZero. -/
theorem aluWrite_cases (op : AluOp) (ra : RegIdx) (v : Byte) (len : Nat) (s : State) :
    (∃ w, alu op (s.reg ra) v = some w ∧ aluWrite op ra v len s = .next ((s.setReg ra w).advance len)) ∨
    (op = .div ∧ v = 0 ∧ aluWrite op ra v len s = .next (haltedOn .divisionByZero s)) := by
  cases op
  case div =>
    by_cases hv : v = 0
    · exact .inr ⟨rfl, hv, by simp [aluWrite, alu, hv, raise_eq]⟩
    · exact .inl ⟨_, if_neg hv, by simp only [aluWrite, alu, if_neg hv]; rfl⟩
  all_goals exact .inl ⟨_, rfl, rfl⟩

/-! ### Interrupts -/

@[simp] theorem sp_pushChecked (v : Byte) (s : State) : (pushChecked v s).sp = s.sp - 1 := by
  simp [pushChecked, storeTop, pushSlot]

theorem reg_pushChecked (v : Byte) (s : State) (r : RegIdx) (h : r ≠ 7) :
    (pushChecked v s).reg r = s.reg r := by
  simp [pushChecked, storeTop, spIdx, h]

@[simp] theorem load8_pushChecked (v : Byte) (s : State) (a : Byte) :
    (pushChecked v s).load8 a = if a = s.sp - 1 then v else s.load8 a := by
  simp [pushChecked, storeTop, pushSlot]

/-- The nine cells of the frame, the stack pointer below them, and the registers, after the nine pushes
(R174). -/
theorem pushFrame_spec (s : State) :
    (pushFrame s).sp = s.sp - 9 ∧
    (∀ r : RegIdx, r ≠ 7 → (pushFrame s).reg r = s.reg r) ∧
    (∀ a : Byte, (pushFrame s).load8 a =
      if a = s.sp - 9 then s.fl else if a = s.sp - 8 then s.reg 0 else if a = s.sp - 7 then s.reg 1
      else if a = s.sp - 6 then s.reg 2 else if a = s.sp - 5 then s.reg 3
      else if a = s.sp - 4 then s.reg 4 else if a = s.sp - 3 then s.reg 5
      else if a = s.sp - 2 then s.reg 6 else if a = s.sp - 1 then low8 s.pc else s.load8 a) := by
  refine ⟨?_, fun r hr => ?_, fun a => ?_⟩
  · simp [pushFrame, entryFrame, sub_sub]
  · simp [pushFrame, entryFrame, reg_pushChecked, hr]
  · simp [pushFrame, entryFrame, sub_sub]

/-- The nine pushes touch nothing but x[7] and memory. -/
theorem pushFrame_frame (s : State) :
    (pushFrame s).pc = s.pc ∧ (pushFrame s).fl = s.fl ∧ (pushFrame s).ie = s.ie ∧
    (pushFrame s).run = s.run ∧ (pushFrame s).status = s.status ∧ (pushFrame s).out = s.out ∧
    (pushFrame s).policy = s.policy :=
  ⟨rfl, rfl, rfl, rfl, rfl, rfl, rfl⟩

theorem pushFrame_wf {s : State} (h : s.mem.wf) : (pushFrame s).mem.wf := by
  have step : ∀ (vs : List Byte) (t : State), t.mem.wf →
      (vs.foldl (fun t v => pushChecked v t) t).mem.wf := by
    intro vs
    induction vs with
    | nil => exact fun t ht => ht
    | cons v vs ih => exact fun t ht => ih _ (State.wf_store8 (s := t.setReg spIdx _) _ _ ht)
  exact step _ s h

/-- Acknowledging changes IE and x[6] alone. -/
@[simp] theorem reg_acknowledge (n : IntNum) (s : State) (r : RegIdx) :
    (acknowledge n s).reg r = if r = 6 then s.pol.ack (s.reg 6) n else s.reg r :=
  State.reg_setReg _ _ _ _

@[simp] theorem load8_acknowledge (n : IntNum) (s : State) (a : Byte) :
    (acknowledge n s).load8 a = s.load8 a := rfl

@[simp] theorem sp_acknowledge (n : IntNum) (s : State) : (acknowledge n s).sp = s.sp := by
  simp [State.sp, spIdx]

/-- The state an interrupt entry makes where nine bytes fit. -/
def entered (n : IntNum) (s : State) : State :=
  (pushFrame (acknowledge n s)).setPc
    (zext9 (s.pol.vector n (pushFrame (acknowledge n s)).load8))

/-- An interrupt entry is refused whole below nine bytes of room, and otherwise makes `entered`. -/
theorem interruptEntry_cases (n : IntNum) (s : State) :
    (s.sp < 9 ∧ interruptEntry n s = .next (haltedOn (.stackFault .push s.sp) s)) ∨
    (9 ≤ s.sp ∧ interruptEntry n s = .next (entered n s)) := by
  by_cases h : s.sp < frameSize
  · exact .inl ⟨h, by rw [interruptEntry, if_pos h]; rfl⟩
  · exact .inr ⟨BitVec.not_lt.mp h, by rw [interruptEntry, if_neg h]; rfl⟩

/-- What an interrupt entry leaves in each field and each register (R173). -/
theorem entered_spec (n : IntNum) (s : State) :
    (entered n s).sp = s.sp - 9 ∧
    (∀ r : RegIdx, r ≠ 7 → (entered n s).reg r = if r = 6 then s.pol.ack (s.reg 6) n else s.reg r) ∧
    (entered n s).fl = s.fl ∧ (entered n s).ie = false ∧ (entered n s).run = s.run ∧
    (entered n s).status = s.status ∧ (entered n s).out = s.out ∧ (entered n s).policy = s.policy ∧
    (entered n s).pc = zext9 (s.pol.vector n (entered n s).load8) := by
  obtain ⟨hsp, hreg, -⟩ := pushFrame_spec (acknowledge n s)
  refine ⟨by simp [entered, hsp], fun r hr => by simp [entered, hreg r hr], rfl, rfl, rfl, rfl, rfl, rfl, rfl⟩

/-- Memory after an interrupt entry (R174). -/
theorem load8_entered (n : IntNum) (s : State) (a : Byte) :
    (entered n s).load8 a =
      if a = s.sp - 9 then s.fl else if a = s.sp - 8 then s.reg 0 else if a = s.sp - 7 then s.reg 1
      else if a = s.sp - 6 then s.reg 2 else if a = s.sp - 5 then s.reg 3
      else if a = s.sp - 4 then s.reg 4 else if a = s.sp - 3 then s.reg 5
      else if a = s.sp - 2 then s.pol.ack (s.reg 6) n else if a = s.sp - 1 then low8 s.pc
      else s.load8 a := by
  have h := (pushFrame_spec (acknowledge n s)).2.2 a
  simp only [sp_acknowledge, reg_acknowledge, load8_acknowledge] at h
  exact h

/-- The state an IRET makes where nine bytes can be popped (R151). -/
def returned (s : State) : State :=
  { s with
    fl := s.load8 (s.sp + 0)
    regs := #v[s.load8 (s.sp + 1), s.load8 (s.sp + 2), s.load8 (s.sp + 3), s.load8 (s.sp + 4),
      s.load8 (s.sp + 5), s.load8 (s.sp + 6), s.load8 (s.sp + 7), s.sp + 9]
    pc := zext9 (s.load8 (s.sp + 8))
    ie := true }

/-- An IRET is refused whole where nine bytes cannot be popped, and otherwise makes `returned`. -/
theorem interruptReturn_cases (s : State) :
    (0xEB < s.sp ∧ interruptReturn s = .next (haltedOn (.stackFault .pop s.sp) s)) ∨
    (s.sp ≤ 0xEB ∧ interruptReturn s = .next (returned s)) := by
  by_cases h : returnLimit < s.sp
  · exact .inl ⟨h, by rw [interruptReturn, if_pos h]; rfl⟩
  · exact .inr ⟨BitVec.not_lt.mp h, by rw [interruptReturn, if_neg h]; rfl⟩

/-- The registers after an IRET. -/
theorem reg_returned (s : State) (r : RegIdx) :
    (returned s).reg r = if r = 7 then s.sp + 9 else s.load8 (s.sp + 1 + regByte r) := by
  fin_cases r <;> simp [returned, State.reg, regByte, add_assoc]

end Sys2Proof.Machine
end

