-- ==== Sys2Proof/Laws/Step.lean ====
section
/-! SUPPORT. What a step can do, said once: the boundary's five cases, the fetch's three, and each
instruction's, in terms of the shared operations. -/

namespace Sys2Proof.Machine

/-! ### The boundary -/

theorem acceptedInterrupt_eq_none_iff (s : State) :
    acceptedInterrupt s = none ↔ s.ie = false ∨ s.pol.select (s.reg 5) (s.reg 6) = none := by
  cases h : s.ie <;> simp [acceptedInterrupt, h, imIdx, isIdx]

theorem acceptedInterrupt_eq_some_iff (n : IntNum) (s : State) :
    acceptedInterrupt s = some n ↔ s.ie = true ∧ s.pol.select (s.reg 5) (s.reg 6) = some n := by
  cases h : s.ie <;> simp [acceptedInterrupt, h, imIdx, isIdx]

theorem boundary_of_halted {s : State} (h : s.run = .halted) : boundary s = .idle := by
  simp [boundary, h]

theorem boundary_of_out_of_range {s : State} (h : s.run = .running) (hp : 0xFF < s.pc) :
    boundary s = .raises (.memoryFault s.pc) := by
  simp only [boundary, h, if_pos hp]

theorem boundary_of_interrupted {n : IntNum} {s : State} (h : Interrupted n s) :
    boundary s = .enters n := by
  obtain ⟨hr, hp, hie, hsel⟩ := h
  have hacc := (acceptedInterrupt_eq_some_iff n s).mpr ⟨hie, hsel⟩
  simp only [boundary, hr, if_neg (BitVec.not_lt.mpr hp), hacc]

/-- A boundary that fetches depends on the fetch alone. -/
theorem boundary_of_fetching {s : State} (h : Fetching s) :
    boundary s = match fetch s with
      | .error f => .raises f
      | .ok i => .executes i := by
  obtain ⟨hr, hp, hnone⟩ := h
  cases hf : fetch s <;>
    simp only [boundary, hr, if_neg (BitVec.not_lt.mpr hp),
      (acceptedInterrupt_eq_none_iff s).mpr hnone, hf]

/-- Every state is at exactly one kind of boundary. -/
theorem boundary_kinds (s : State) :
    s.run = .halted ∨ (s.run = .running ∧ 0xFF < s.pc) ∨ (∃ n, Interrupted n s) ∨ Fetching s := by
  cases hr : s.run
  · exact .inl rfl
  · by_cases hp : 0xFF < s.pc
    · exact .inr (.inl ⟨rfl, hp⟩)
    · have hp' := BitVec.not_lt.mp hp
      cases hacc : acceptedInterrupt s with
      | none => exact .inr (.inr (.inr ⟨hr, hp', (acceptedInterrupt_eq_none_iff s).mp hacc⟩))
      | some n =>
        exact .inr (.inr (.inl ⟨n, hr, hp', (acceptedInterrupt_eq_some_iff n s).mp hacc⟩))

/-- The boundary is an entry exactly when an interrupt is taken (spec/60_exceptions.md R172). -/
theorem boundary_eq_enters_iff (n : IntNum) (s : State) : boundary s = .enters n ↔ Interrupted n s := by
  refine ⟨fun h => ?_, boundary_of_interrupted⟩
  rcases boundary_kinds s with hk | ⟨hk, hp⟩ | ⟨m, hk⟩ | hk
  · simp [boundary_of_halted hk] at h
  · simp [boundary_of_out_of_range hk hp] at h
  · rw [boundary_of_interrupted hk] at h
    cases h
    exact hk
  · rw [boundary_of_fetching hk] at h
    cases hf : fetch s <;> simp [hf] at h

/-- No entry is at hand where no interrupt is accepted. -/
theorem boundary_ne_enters {s : State} (h : acceptedInterrupt s = none) (n : IntNum) :
    boundary s ≠ .enters n := by
  intro hb
  have hi := ((boundary_eq_enters_iff n s).mp hb).2.2
  rw [(acceptedInterrupt_eq_some_iff n s).mpr hi] at h
  cases h

theorem not_fetching_of_interrupted {n : IntNum} {s : State} (h : Interrupted n s) : ¬ Fetching s := by
  rintro ⟨-, -, hf | hf⟩
  · simp [h.2.2.1] at hf
  · simp [h.2.2.2] at hf

/-- What a step does at each kind of boundary. -/
theorem step_of_halted {s : State} (h : s.run = .halted) : step s = .next s := by
  simp [step, boundary_of_halted h]

theorem step_of_out_of_range {s : State} (h : s.run = .running) (hp : 0xFF < s.pc) :
    step s = .next (haltedOn (.memoryFault s.pc) s) := by
  simp [step, boundary_of_out_of_range h hp, raise_eq]

theorem step_of_interrupted {n : IntNum} {s : State} (h : Interrupted n s) :
    step s = interruptEntry n s := by
  simp [step, boundary_of_interrupted h]

theorem step_of_fetch_error {s : State} {f : Fault} (h : Fetching s) (hf : fetch s = .error f) :
    step s = .next (haltedOn f s) := by
  simp [step, boundary_of_fetching h, hf, raise_eq]

theorem step_of_fetch_ok {s : State} {i : Instr} (h : Fetching s) (hf : fetch s = .ok i) :
    step s = exec i s := by
  simp [step, boundary_of_fetching h, hf]

/-- Everything a step can do. -/
theorem step_cases (s : State) :
    (s.run = .halted ∧ step s = .next s) ∨
    (s.run = .running ∧ 0xFF < s.pc ∧ step s = .next (haltedOn (.memoryFault s.pc) s)) ∨
    (∃ n, Interrupted n s ∧ step s = interruptEntry n s) ∨
    (∃ f, Fetching s ∧ fetch s = .error f ∧ step s = .next (haltedOn f s)) ∨
    (∃ i, Fetching s ∧ fetch s = .ok i ∧ step s = exec i s) := by
  rcases boundary_kinds s with h | ⟨h, hp⟩ | ⟨n, h⟩ | h
  · exact .inl ⟨h, step_of_halted h⟩
  · exact .inr (.inl ⟨h, hp, step_of_out_of_range h hp⟩)
  · exact .inr (.inr (.inl ⟨n, h, step_of_interrupted h⟩))
  · cases hf : fetch s with
    | error f => exact .inr (.inr (.inr (.inl ⟨f, h, rfl, step_of_fetch_error h hf⟩)))
    | ok i => exact .inr (.inr (.inr (.inr ⟨i, h, rfl, step_of_fetch_ok h hf⟩)))

/-! ### The fetch -/

/-- The window of bytes at PC, in range: the opcode byte, then as many of the next two as there are. -/
theorem fetchWindow_eq {s : State} (h : s.pc ≤ 0xFF) :
    fetchWindow s = s.mem.read s.pc.toNat ::
      (if s.pc.toNat < 0xFF then
        s.mem.read (s.pc.toNat + 1) ::
          (if s.pc.toNat < 0xFE then [s.mem.read (s.pc.toNat + 2)] else [])
       else []) := by
  have h' : s.pc.toNat ≤ 255 := h
  have h0 : s.pc.toNat < 256 := by omega
  by_cases h1 : s.pc.toNat < 0xFF
  · by_cases h2 : s.pc.toNat < 0xFE
    · have e1 : s.pc.toNat + 1 < 256 := by omega
      have e2 : s.pc.toNat + 2 < 256 := by omega
      simp [fetchWindow, byteAt, Config.memSize, h0, h1, h2, e1, e2]
    · have e1 : s.pc.toNat + 1 < 256 := by omega
      have e2 : ¬ s.pc.toNat + 2 < 256 := by omega
      simp [fetchWindow, byteAt, Config.memSize, h0, h1, h2, e1, e2]
  · have e1 : ¬ s.pc.toNat + 1 < 256 := by omega
    have e2 : ¬ s.pc.toNat + 2 < 256 := by omega
    simp [fetchWindow, byteAt, Config.memSize, h0, h1, e1, e2]

/-- A fetch fails on an unknown opcode byte, or on an operand byte past the memory, whose address is then
`0x100` (R167). -/
theorem fetch_error_cases {s : State} {f : Fault} (hp : s.pc ≤ 0xFF) (h : fetch s = .error f) :
    (f = .unknownOpcode (low8 s.pc) (s.mem.read s.pc.toNat) ∧ known (s.mem.read s.pc.toNat) = false) ∨
    (f = .memoryFault 0x100 ∧ 0xFE ≤ s.pc) := by
  have hp' : s.pc.toNat ≤ 255 := hp
  rw [fetch, fetchWindow_eq hp] at h
  cases hl : lookup (s.mem.read s.pc.toNat) with
  | none =>
    simp [decode, hl] at h
    exact .inl ⟨h.symm, by simp [known, hl]⟩
  | some fm =>
    right
    by_cases h1 : s.pc.toNat < 255
    · by_cases h2 : s.pc.toNat < 254
      · exfalso; cases fm <;> simp [decode, hl, h1, h2] at h
      · have e : s.pc = 254 := BitVec.eq_of_toNat_eq (by simp; omega)
        cases fm <;> simp [decode, hl, h1, h2] at h <;> rw [← h, e] <;> simp
    · have e : s.pc = 255 := BitVec.eq_of_toNat_eq (by simp; omega)
      cases fm <;> simp [decode, hl, h1] at h <;> rw [← h, e] <;> simp

/-- The fetch reads nothing but PC and memory. -/
theorem fetch_congr {s t : State} (hpc : t.pc = s.pc) (hmem : t.mem = s.mem) : fetch t = fetch s := by
  have hb : byteAt t = byteAt s := funext fun a => by simp only [byteAt, hmem]
  simp only [fetch, fetchWindow, hpc, hb]

/-! ### The instructions -/

theorem execNop_eq (s : State) : exec .nop s = .next (s.advance 1) := rfl

theorem execHlt_eq (s : State) : exec .hlt s = .next ((s.advance 1).haltWith .cleanHalt) := rfl

theorem execIret_eq (s : State) : exec .iret s = interruptReturn s := rfl

theorem execPrn_regByte (r : RegIdx) (s : State) :
    exec (.prn (regByte r)) s = .next ((s.emitPrint (s.reg r)).advance 2) :=
  withReg_regByte r s _

theorem execLdi_regByte (r : RegIdx) (imm : Byte) (s : State) :
    exec (.ldi (regByte r) imm) s = .next ((s.setReg r imm).advance 3) :=
  withReg_regByte r s _

theorem execSt_regByte (ra rb : RegIdx) (s : State) :
    exec (.st (regByte ra) (regByte rb)) s =
      .next ((s.store8 (storeAddress ra s) (s.reg rb)).advance 3) :=
  withRegs_regByte ra rb s _

theorem execAdd_regByte (ra rb : RegIdx) (s : State) :
    exec (.add (regByte ra) (regByte rb)) s = aluWrite .add ra (s.reg rb) 3 s :=
  withRegs_regByte ra rb s _

theorem execMul_regByte (ra rb : RegIdx) (s : State) :
    exec (.mul (regByte ra) (regByte rb)) s = aluWrite .mul ra (s.reg rb) 3 s :=
  withRegs_regByte ra rb s _

theorem execDiv_regByte (ra rb : RegIdx) (s : State) :
    exec (.div (regByte ra) (regByte rb)) s = aluWrite .div ra (s.reg rb) 3 s :=
  withRegs_regByte ra rb s _

theorem execInc_regByte (r : RegIdx) (s : State) :
    exec (.inc (regByte r)) s = aluWrite .add r 0x01 2 s :=
  withReg_regByte r s _

theorem execJmp_regByte (r : RegIdx) (s : State) :
    exec (.jmp (regByte r)) s = .next (s.setPc (zext9 (s.reg r))) :=
  withReg_regByte r s _

theorem execInte_regByte (r : RegIdx) (s : State) :
    exec (.inte (regByte r)) s = .next ((s.setReg 6 (s.pol.inte (s.reg 6) (s.reg r))).advance 2) :=
  withReg_regByte r s _

/-- The state below the stack pointer, after a push of `v`. -/
def pushed (v : Byte) (s : State) : State := storeTop v (s.setReg 7 (pushSlot s))

@[simp] theorem sp_pushed (v : Byte) (s : State) : (pushed v s).sp = pushSlot s := by
  simp [pushed, storeTop, spIdx]

@[simp] theorem reg_pushed (v : Byte) (s : State) (r : RegIdx) :
    (pushed v s).reg r = if r = 7 then pushSlot s else s.reg r := by
  simp [pushed, storeTop]

@[simp] theorem load8_pushed (v : Byte) (s : State) (a : Byte) :
    (pushed v s).load8 a = if a = pushSlot s then v else s.load8 a := by
  simp [pushed, storeTop, spIdx]

theorem execPush_cases (r : RegIdx) (s : State) :
    (s.sp = 0 ∧ exec (.push (regByte r)) s = .next (haltedOn (.stackFault .push s.sp) s)) ∨
    (s.sp ≠ 0 ∧ exec (.push (regByte r)) s =
      .next ((pushed (if r = 7 then pushSlot s else s.reg r) s).advance 2)) := by
  have e : exec (.push (regByte r)) s = _ := withReg_regByte r s _
  rcases growStack_cases s with ⟨h, hg⟩ | ⟨h, hg⟩
  · exact .inl ⟨h, by rw [e, hg]; rfl⟩
  · exact .inr ⟨h, by rw [e, hg]; simp [pushed]⟩

theorem execPop_cases (r : RegIdx) (s : State) :
    (0xF4 ≤ s.sp ∧ exec (.pop (regByte r)) s = .next (haltedOn (.stackFault .pop s.sp) s)) ∨
    (s.sp < 0xF4 ∧ exec (.pop (regByte r)) s =
      .next ((dropTop (s.setReg r (s.load8 s.sp))).advance 2)) := by
  have e : exec (.pop (regByte r)) s = _ := withReg_regByte r s _
  rcases peekTop_cases s with ⟨h, hg⟩ | ⟨h, hg⟩
  · exact .inl ⟨h, by rw [e, hg]; rfl⟩
  · exact .inr ⟨h, by rw [e, hg]⟩

theorem execRet_cases (s : State) :
    (0xF4 ≤ s.sp ∧ exec .ret s = .next (haltedOn (.stackFault .pop s.sp) s)) ∨
    (s.sp < 0xF4 ∧ exec .ret s = .next (dropTop (s.setPc (zext9 (s.load8 s.sp))))) := by
  rcases peekTop_cases s with ⟨h, hg⟩ | ⟨h, hg⟩
  · exact .inl ⟨h, by simp [exec, execRet, hg, raise_eq]⟩
  · exact .inr ⟨h, by simp [exec, execRet, hg]⟩

theorem execCall_cases (r : RegIdx) (s : State) :
    (0xFF < s.pc.toNat + 2 ∧
      exec (.call (regByte r)) s = .next (haltedOn (.memoryFault (s.pc + 2)) s)) ∨
    (s.pc.toNat + 2 ≤ 0xFF ∧ s.sp = 0 ∧
      exec (.call (regByte r)) s = .next (haltedOn (.stackFault .push s.sp) s)) ∨
    (s.pc.toNat + 2 ≤ 0xFF ∧ s.sp ≠ 0 ∧ exec (.call (regByte r)) s =
      .next ((pushed (low8 (s.pc + 2)) s).setPc
        (zext9 (if r = 7 then pushSlot s else s.reg r)))) := by
  have e : exec (.call (regByte r)) s = _ := withReg_regByte r s _
  by_cases hp : 0xFF < s.pc.toNat + 2
  · exact .inl ⟨hp, by rw [e, if_pos hp]; rfl⟩
  · rcases growStack_cases s with ⟨h, hg⟩ | ⟨h, hg⟩
    · exact .inr (.inl ⟨Nat.le_of_not_lt hp, h, by rw [e, if_neg hp, hg]; rfl⟩)
    · refine .inr (.inr ⟨Nat.le_of_not_lt hp, h, ?_⟩)
      rw [e, if_neg hp, hg]
      simp [pushed, storeTop]

/-- Every instruction is one whose register operands name registers, or it has a byte that names none and
raises InvalidRegister. This is the way to take an instruction apart: one case for each. -/
theorem exec_induction {P : Instr → State → Outcome → Prop}
    (nop : ∀ s, P .nop s (exec .nop s)) (hlt : ∀ s, P .hlt s (exec .hlt s))
    (ret : ∀ s, P .ret s (exec .ret s)) (iret : ∀ s, P .iret s (exec .iret s))
    (push : ∀ r s, P (.push (regByte r)) s (exec (.push (regByte r)) s))
    (pop : ∀ r s, P (.pop (regByte r)) s (exec (.pop (regByte r)) s))
    (prn : ∀ r s, P (.prn (regByte r)) s (exec (.prn (regByte r)) s))
    (call : ∀ r s, P (.call (regByte r)) s (exec (.call (regByte r)) s))
    (inte : ∀ r s, P (.inte (regByte r)) s (exec (.inte (regByte r)) s))
    (jmp : ∀ r s, P (.jmp (regByte r)) s (exec (.jmp (regByte r)) s))
    (inc : ∀ r s, P (.inc (regByte r)) s (exec (.inc (regByte r)) s))
    (ldi : ∀ r imm s, P (.ldi (regByte r) imm) s (exec (.ldi (regByte r) imm) s))
    (st : ∀ ra rb s, P (.st (regByte ra) (regByte rb)) s (exec (.st (regByte ra) (regByte rb)) s))
    (add : ∀ ra rb s, P (.add (regByte ra) (regByte rb)) s (exec (.add (regByte ra) (regByte rb)) s))
    (mul : ∀ ra rb s, P (.mul (regByte ra) (regByte rb)) s (exec (.mul (regByte ra) (regByte rb)) s))
    (div : ∀ ra rb s, P (.div (regByte ra) (regByte rb)) s (exec (.div (regByte ra) (regByte rb)) s))
    (ill : ∀ i b s, i.wf = false → isRegByte b = false →
      P i s (.next (haltedOn (.invalidRegister (low8 s.pc) b) s)))
    (i : Instr) (s : State) : P i s (exec i s) := by
  have one : ∀ (mk : Byte → Instr) (k : RegIdx → Outcome) (a : Byte),
      exec (mk a) s = withReg a s k → (mk a).wf = isRegByte a →
      (∀ r, P (mk (regByte r)) s (exec (mk (regByte r)) s)) → P (mk a) s (exec (mk a) s) := by
    intro mk k a he hw hr
    rcases withReg_cases a s k with ⟨r, rfl, -⟩ | ⟨ha, h⟩
    · exact hr r
    · rw [he, h]; exact ill _ _ _ (hw.trans ha) ha
  have two : ∀ (mk : Byte → Byte → Instr) (k : RegIdx → RegIdx → Outcome) (a b : Byte),
      exec (mk a b) s = withRegs a b s k → (mk a b).wf = (isRegByte a && isRegByte b) →
      (∀ r q, P (mk (regByte r) (regByte q)) s (exec (mk (regByte r) (regByte q)) s)) →
      P (mk a b) s (exec (mk a b) s) := by
    intro mk k a b he hw hr
    rcases withRegs_cases a b s k with ⟨r, q, rfl, rfl, -⟩ | ⟨ha, h⟩ | ⟨ha, hb, h⟩
    · exact hr r q
    · rw [he, h]; exact ill _ _ _ (by rw [hw, ha]; rfl) ha
    · rw [he, h]; exact ill _ _ _ (by rw [hw, ha, hb]; rfl) hb
  cases i with
  | nop => exact nop s
  | hlt => exact hlt s
  | ret => exact ret s
  | iret => exact iret s
  | push a => exact one _ _ a rfl rfl fun r => push r s
  | pop a => exact one _ _ a rfl rfl fun r => pop r s
  | prn a => exact one _ _ a rfl rfl fun r => prn r s
  | call a => exact one _ _ a rfl rfl fun r => call r s
  | inte a => exact one _ _ a rfl rfl fun r => inte r s
  | jmp a => exact one _ _ a rfl rfl fun r => jmp r s
  | inc a => exact one _ _ a rfl rfl fun r => inc r s
  | ldi a imm => exact one (fun a => .ldi a imm) _ a rfl rfl fun r => ldi r imm s
  | st a b => exact two _ _ a b rfl rfl fun r q => st r q s
  | add a b => exact two _ _ a b rfl rfl fun r q => add r q s
  | mul a b => exact two _ _ a b rfl rfl fun r q => mul r q s
  | div a b => exact two _ _ a b rfl rfl fun r q => div r q s

end Sys2Proof.Machine
end

