-- ==== Sys2Proof/Laws/Exec.lean ====
section
/-! SUPPORT. What executing an instruction can do to the control state, said once for all of them. -/

namespace Sys2Proof.Machine

/-- The outcomes of an instruction: a fault, which changes RUN and STATUS alone, or its own effect, which
touches RUN and STATUS only in HLT, FL and IE only in IRET, OUT only in PRN, never the policy, and
keeps memory canonical. -/
inductive ExecOutcome (i : Instr) (s t : State) : Prop
  | faults (f : Fault) (eq : t = haltedOn f s)
  | completes (wf : i.wf = true)
      (policy : t.policy = s.policy)
      (run : KeepsRun s t ∨ (i = .hlt ∧ t.run = .halted ∧ t.status = .cleanHalt))
      (flags : KeepsFlags s t ∨ (i = .iret ∧ t.ie = true))
      (out : t.out = s.out ∨ ∃ r, i = .prn (regByte r) ∧ t.out = s.out ++ [s.reg r])
      (mem : s.mem.wf → t.mem.wf)

theorem aluWrite_outcome {i : Instr} (hi : i.wf = true) {op : AluOp} {ra : RegIdx} {v : Byte} {len : Nat}
    {s t : State} (h : aluWrite op ra v len s = .next t) : ExecOutcome i s t := by
  rcases aluWrite_cases op ra v len s with ⟨w, _, e⟩ | ⟨_, _, e⟩ <;> rw [e] at h <;> cases h
  · exact .completes hi rfl (.inl ⟨rfl, rfl⟩) (.inl ⟨rfl, rfl⟩) (.inl rfl) id
  · exact .faults _ rfl

theorem exec_outcome (i : Instr) (s t : State) (h : exec i s = .next t) : ExecOutcome i s t := by
  revert t
  refine exec_induction (P := fun i s o => ∀ t, o = .next t → ExecOutcome i s t)
    ?nop ?hlt ?ret ?iret ?push ?pop ?prn ?call ?inte ?jmp ?inc ?ldi ?st ?add ?mul ?div ?ill i s
  case nop =>
    rintro s t ⟨⟩
    exact .completes rfl rfl (.inl ⟨rfl, rfl⟩) (.inl ⟨rfl, rfl⟩) (.inl rfl) id
  case hlt =>
    rintro s t ⟨⟩
    exact .completes rfl rfl (.inr ⟨rfl, rfl, rfl⟩) (.inl ⟨rfl, rfl⟩) (.inl rfl) id
  case ret =>
    intro s t h
    rcases execRet_cases s with ⟨_, e⟩ | ⟨_, e⟩ <;> rw [e] at h <;> cases h
    · exact .faults _ rfl
    · exact .completes rfl rfl (.inl ⟨rfl, rfl⟩) (.inl ⟨rfl, rfl⟩) (.inl rfl) id
  case iret =>
    intro s t h
    rcases interruptReturn_cases s with ⟨_, e⟩ | ⟨_, e⟩ <;> rw [execIret_eq, e] at h <;> cases h
    · exact .faults _ rfl
    · exact .completes rfl rfl (.inl ⟨rfl, rfl⟩) (.inr ⟨rfl, rfl⟩) (.inl rfl) id
  case push =>
    intro r s t h
    rcases execPush_cases r s with ⟨_, e⟩ | ⟨_, e⟩ <;> rw [e] at h <;> cases h
    · exact .faults _ rfl
    · exact .completes (isRegByte_regByte r) rfl (.inl ⟨rfl, rfl⟩) (.inl ⟨rfl, rfl⟩) (.inl rfl)
        (State.wf_store8 (s := s.setReg 7 (pushSlot s)) _ _)
  case pop =>
    intro r s t h
    rcases execPop_cases r s with ⟨_, e⟩ | ⟨_, e⟩ <;> rw [e] at h <;> cases h
    · exact .faults _ rfl
    · exact .completes (isRegByte_regByte r) rfl (.inl ⟨rfl, rfl⟩) (.inl ⟨rfl, rfl⟩) (.inl rfl) id
  case prn =>
    intro r s t h
    rw [execPrn_regByte] at h
    cases h
    exact .completes (isRegByte_regByte r) rfl (.inl ⟨rfl, rfl⟩) (.inl ⟨rfl, rfl⟩)
      (.inr ⟨r, rfl, rfl⟩) id
  case call =>
    intro r s t h
    rcases execCall_cases r s with ⟨_, e⟩ | ⟨_, _, e⟩ | ⟨_, _, e⟩ <;> rw [e] at h <;> cases h
    · exact .faults _ rfl
    · exact .faults _ rfl
    · exact .completes (isRegByte_regByte r) rfl (.inl ⟨rfl, rfl⟩) (.inl ⟨rfl, rfl⟩) (.inl rfl)
        (State.wf_store8 (s := s.setReg 7 (pushSlot s)) _ _)
  case inte =>
    intro r s t h
    rw [execInte_regByte] at h
    cases h
    exact .completes (isRegByte_regByte r) rfl (.inl ⟨rfl, rfl⟩) (.inl ⟨rfl, rfl⟩) (.inl rfl) id
  case jmp =>
    intro r s t h
    rw [execJmp_regByte] at h
    cases h
    exact .completes (isRegByte_regByte r) rfl (.inl ⟨rfl, rfl⟩) (.inl ⟨rfl, rfl⟩) (.inl rfl) id
  case inc =>
    intro r s t h
    exact aluWrite_outcome (by simp [Instr.wf]) (execInc_regByte r s ▸ h)
  case ldi =>
    intro r imm s t h
    rw [execLdi_regByte] at h
    cases h
    exact .completes (isRegByte_regByte r) rfl (.inl ⟨rfl, rfl⟩) (.inl ⟨rfl, rfl⟩) (.inl rfl) id
  case st =>
    intro ra rb s t h
    rw [execSt_regByte] at h
    cases h
    exact .completes (by simp [Instr.wf]) rfl (.inl ⟨rfl, rfl⟩) (.inl ⟨rfl, rfl⟩) (.inl rfl)
      (State.wf_store8 _ _)
  case add =>
    intro ra rb s t h
    exact aluWrite_outcome (by simp [Instr.wf]) (execAdd_regByte ra rb s ▸ h)
  case mul =>
    intro ra rb s t h
    exact aluWrite_outcome (by simp [Instr.wf]) (execMul_regByte ra rb s ▸ h)
  case div =>
    intro ra rb s t h
    exact aluWrite_outcome (by simp [Instr.wf]) (execDiv_regByte ra rb s ▸ h)
  case ill =>
    rintro i b s _ _ t ⟨⟩
    exact .faults _ rfl

end Sys2Proof.Machine
end

