-- ==== Sys2Proof/Laws/PerInstr.lean ====
section
/-! SUPPORT. The per-instruction families of LAWS.json: a statement about each instruction as syntax, and
one lemma for each constructor. -/

/-- Family EncodeLength: an instruction's encoding begins with a known opcode byte and is as long as the
opcode map says, one byte and the operand count, at most three (spec/30_encoding.md R60, R71). -/
def Sys2Proof.Laws.EncodeLength.Statement (i : Sys2Proof.Instr) : Prop :=
  ∃ op operands, Sys2Proof.encode i = op :: operands ∧ Sys2Proof.known op = true ∧
    operands.length = Sys2Proof.operandCount op ∧ operands.length ≤ 2

namespace Sys2Proof.Laws.EncodeLength

theorem nop : Statement .nop := ⟨_, _, rfl, by decide, rfl, by simp⟩
theorem hlt : Statement .hlt := ⟨_, _, rfl, by decide, rfl, by simp⟩
theorem ret : Statement .ret := ⟨_, _, rfl, by decide, rfl, by simp⟩
theorem iret : Statement .iret := ⟨_, _, rfl, by decide, rfl, by simp⟩
theorem push (a : Byte) : Statement (.push a) := ⟨_, _, rfl, by decide, rfl, by simp⟩
theorem pop (a : Byte) : Statement (.pop a) := ⟨_, _, rfl, by decide, rfl, by simp⟩
theorem prn (a : Byte) : Statement (.prn a) := ⟨_, _, rfl, by decide, rfl, by simp⟩
theorem call (a : Byte) : Statement (.call a) := ⟨_, _, rfl, by decide, rfl, by simp⟩
theorem inte (a : Byte) : Statement (.inte a) := ⟨_, _, rfl, by decide, rfl, by simp⟩
theorem jmp (a : Byte) : Statement (.jmp a) := ⟨_, _, rfl, by decide, rfl, by simp⟩
theorem inc (a : Byte) : Statement (.inc a) := ⟨_, _, rfl, by decide, rfl, by simp⟩
theorem ldi (a imm : Byte) : Statement (.ldi a imm) := ⟨_, _, rfl, by decide, rfl, by simp⟩
theorem st (a b : Byte) : Statement (.st a b) := ⟨_, _, rfl, by decide, rfl, by simp⟩
theorem add (a b : Byte) : Statement (.add a b) := ⟨_, _, rfl, by decide, rfl, by simp⟩
theorem mul (a b : Byte) : Statement (.mul a b) := ⟨_, _, rfl, by decide, rfl, by simp⟩
theorem div (a b : Byte) : Statement (.div a b) := ⟨_, _, rfl, by decide, rfl, by simp⟩

end Sys2Proof.Laws.EncodeLength
end

