-- ==== Sys2Proof/Tests/Slice0.lean ====
section
/-! SUPPORT. Tests of the model, each about one step or one function, with results taken from
spec/95_test_vectors.md (the vector's name stands in the docstring) or written out from the rule named;
and for each obligation with hypotheses a state that meets them. -/

namespace Sys2Proof.Tests

open Sys2Proof Sys2Proof.Machine

/-! ### Helpers -/

/-- A running machine, otherwise as after reset, with these bytes in memory from PC on. -/
def at_ (pc : PcWord) (bytes : List Byte) : State :=
  { State.reset with pc := pc, run := .running, mem := Memory.writeList [] pc.toNat bytes }

/-- The registers `x[r]` and upward get these values. -/
def regs_ : RegIdx → List Byte → State → State
  | _, [], s => s
  | r, v :: vs, s => regs_ (r + 1) vs (s.setReg r v)

/-- The cells from `a` on get these values. -/
def cells_ (a : Nat) (bytes : List Byte) (s : State) : State :=
  { s with mem := s.mem.writeList a bytes }

/-- The same machine built with `POLICY_LS8`. -/
def ls8_ (s : State) : State := { s with policy := .ls8 }

/-- A machine whose next step is the entry of interrupt 0, with this stack pointer. -/
def pending_ (sp : Byte) : State := ls8_ (regs_ 5 [0x01, 0x01, sp] (at_ 0x20 [0x00]))

/-- What one looks at in the next state, if there is one. -/
def after {α : Type} (look : State → α) : Outcome → Option α
  | .next t => some (look t)
  | .fault _ => none
  | .refused _ => none

/-- The status a fault leaves, and PC, after one step. -/
def stopOf (s : State) : Option (RunState × Status × PcWord) :=
  after (fun t => (t.run, t.status, t.pc)) (step s)

/-- Consecutive cells. -/
def cellsOf (a : Byte) (n : Nat) (s : State) : List Byte :=
  (List.range n).map (fun k => s.load8 (a + BitVec.ofNat 8 k))

/-! ### Well-formedness: every register operand of every instruction is checked (R62) -/

theorem test_wf_refuses_operand_a :
    [Instr.push 8, .pop 8, .prn 8, .call 8, .inte 8, .jmp 8, .inc 8, .ldi 8 0, .st 8 0, .add 8 0,
      .mul 8 0, .div 8 0].all (fun i => !i.wf) = true := by decide

theorem test_wf_refuses_operand_b :
    [Instr.st 0 8, .add 0 0xFF, .mul 0 8, .div 0 0x80].all (fun i => !i.wf) = true := by decide

/-- No register is barred anywhere, and an immediate is never checked (R11, R63). -/
theorem test_wf_accepts :
    [Instr.nop, .hlt, .ret, .iret, .push 7, .pop 7, .prn 7, .call 7, .inte 7, .jmp 7, .inc 7,
      .ldi 7 0xFF, .st 7 7, .add 7 7, .mul 7 7, .div 7 7].all Instr.wf = true := by decide

/-! ### Decoding: each row of R64, from its bytes written out bit by bit -/

theorem test_decode_f0 :
    decode [0b00000000] = .ok (.nop, []) ∧ decode [0b00000001] = .ok (.hlt, []) ∧
    decode [0b00010001] = .ok (.ret, []) ∧ decode [0b00010011] = .ok (.iret, []) := by decide

theorem test_decode_f1 :
    decode [0b01000101, 3] = .ok (.push 3, []) ∧ decode [0b01000110, 2] = .ok (.pop 2, []) ∧
    decode [0b01000111, 7] = .ok (.prn 7, []) ∧ decode [0b01010000, 1] = .ok (.call 1, []) ∧
    decode [0b01010010, 6] = .ok (.inte 6, []) ∧ decode [0b01010100, 4] = .ok (.jmp 4, []) ∧
    decode [0b01100101, 5] = .ok (.inc 5, []) := by decide

theorem test_decode_f2 :
    decode [0b10000010, 0b00000011, 0b11111111] = .ok (.ldi 3 0xFF, []) ∧
    decode [0b10000100, 0b00000010, 0b00000000] = .ok (.st 2 0, []) ∧
    decode [0b10100000, 0b00000111, 0b00000001] = .ok (.add 7 1, []) ∧
    decode [0b10100010, 0b00000000, 0b00000001] = .ok (.mul 0 1, []) ∧
    decode [0b10100011, 0b00000011, 0b00000000] = .ok (.div 3 0, []) := by decide

/-- F8, F13, F17: bytes that are in no row, one of them the family's SUB. -/
theorem test_decode_rejects :
    decode [0xFF, 0, 0] = .error (.unknownOpcode 0xFF) ∧
    decode [0xA1, 0, 1] = .error (.unknownOpcode 0xA1) ∧
    decode [0x02] = .error (.unknownOpcode 0x02) ∧
    decode [0x82, 0x00] = .error (.missingByte 2) ∧ decode [0x47] = .error (.missingByte 1) ∧
    decode [] = .error (.missingByte 0) := by decide

/-- R64: one row per opcode byte. -/
theorem test_opcodes_distinct : (opcodeMap.map (·.1)).Nodup := by decide

/-- The second byte of the word is bits 15 to 8, the third bits 23 to 16. -/
theorem test_decodeTableWord :
    decodeTableWord 24 0x080082 = some (.ldi 0 8) ∧ decodeTableWord 8 0x82 = some (.ldi 0 0) ∧
    decodeTableWord 16 0x0747 = some (.prn 7) ∧ decodeTableWord 8 0xFF = none := by decide

/-- S1, with the source's own spelling of its program. -/
theorem test_asm_and_encode :
    [Instr.ldi 0 8, .prn 0, .hlt].map Instr.asm = ["LDI R0,8", "PRN R0", "HLT"] ∧
    [Instr.ldi 0 8, .prn 0, .hlt].flatMap encode = [0x82, 0x00, 0x08, 0x47, 0x00, 0x01] := by decide

/-! ### Memory and reset -/

theorem test_reset_memory_canonical : State.reset.mem.wf := by decide

/-- Writing the value an unlisted address reads as takes the cell off the list. -/
theorem test_write_back_to_unlisted :
    Memory.write (Memory.write [] 0x80 0x58) 0x80 0x00 = [] ∧
    Memory.write (Memory.write [] 0x80 0x58) 0x40 0x01 = [(0x40, 0x01), (0x80, 0x58)] := by decide

/-! ### The first step after reset, with an instruction placed for it -/

theorem test_withFetchWord_first :
    after (fun t => (t.reg 0, t.pc)) (step (State.reset.withFetchWord 24 0x080082)) =
      some (0x08, 3) := by decide

/-- A pending interrupt does not get in the way of the placed instruction. -/
theorem test_withFetchWord_pending :
    after (fun t => (t.reg 3, t.pc)) (step ((pending_ 0xF4).withFetchWord 24 0xFF0382)) =
      some (0xFF, 0x23) := by decide

/-! ### Fetch, NOP, HLT, PRN (vectors F) -/

/-- F2, its first step. -/
theorem test_nop_at_top : stopOf (at_ 0xFF [0x00]) = some (.running, .idle, 0x100) := by decide

/-- F2, its second step: PC is never wrapped. -/
theorem test_pc_past_memory :
    stopOf (at_ 0x100 []) = some (.halted, .faulted (.memoryFault 0x100), 0x100) := by decide

/-- F4. -/
theorem test_hlt_at_top : stopOf (at_ 0xFF [0x01]) = some (.halted, .cleanHalt, 0x100) := by decide

/-- F6. -/
theorem test_prn_r7 :
    after (fun t => (t.out, t.pc)) (step (at_ 0 [0x47, 0x07])) = some ([0xF4], 2) := by decide

/-- F7. -/
theorem test_prn_operand_8 :
    after (fun t => (t.out, t.status, t.pc)) (step (at_ 0 [0x47, 0x08])) =
      some ([], .faulted (.invalidRegister 0x00 0x08), 0) := by decide

/-- F9: no operand is read, so no MemoryFault. -/
theorem test_unknown_opcode_at_top :
    stopOf (at_ 0xFF [0xFF]) = some (.halted, .faulted (.unknownOpcode 0xFF 0xFF), 0xFF) := by decide

/-- F11. -/
theorem test_operand_fetch_past_memory :
    stopOf (at_ 0xFE [0x82, 0x00]) = some (.halted, .faulted (.memoryFault 0x100), 0xFE) := by decide

/-- F15: operand A is reported. -/
theorem test_both_operands_out_of_range :
    stopOf (at_ 0 [0xA0, 0x08, 0x09]) =
      some (.halted, .faulted (.invalidRegister 0x00 0x08), 0) := by decide

/-! ### LDI and ST (vectors T) -/

/-- T4. -/
theorem test_ldi_r7 :
    after (fun t => (t.sp, t.pc)) (step (at_ 0 [0x82, 0x07, 0x80])) = some (0x80, 3) := by decide

/-- F12: the last cell holds the immediate. -/
theorem test_ldi_at_top :
    after (fun t => (t.reg 0, t.pc)) (step (at_ 0xFD [0x82, 0x00, 0x55])) =
      some (0x55, 0x100) := by decide

/-- T7. -/
theorem test_st :
    after (fun t => (t.load8 0x80, t.load8 0x58, t.pc))
      (step (regs_ 0 [0x58, 0, 0x80] (at_ 0 [0x84, 0x02, 0x00]))) = some (0x58, 0x00, 3) := by decide

/-- T12: it overwrites its own operand byte, and is not affected. -/
theorem test_st_over_itself :
    after (fun t => (cellsOf 0 3 t, t.pc)) (step (regs_ 0 [0x01, 0x00] (at_ 0 [0x84, 0x00, 0x01]))) =
      some ([0x84, 0x00, 0x01], 3) := by decide

/-! ### The ALU (vectors A) -/

/-- A3. -/
theorem test_add_wraps :
    after (fun t => (t.reg 0, t.reg 1, t.fl, t.pc))
      (step (regs_ 0 [0xC8, 0xC8] (at_ 0 [0xA0, 0x00, 0x01]))) = some (0x90, 0xC8, 0, 3) := by decide

/-- A6. -/
theorem test_add_r7 :
    after State.sp (step (regs_ 0 [0, 0x02] (at_ 0 [0xA0, 0x07, 0x01]))) = some 0xF6 := by decide

/-- A7. -/
theorem test_mul_low_byte :
    after (fun t => (t.reg 0, t.reg 1)) (step (regs_ 0 [0xC8, 0x03] (at_ 0 [0xA2, 0x00, 0x01]))) =
      some (0x58, 0x03) := by decide

/-- A12. -/
theorem test_mul_square :
    after (·.reg 0) (step (regs_ 0 [0x0C] (at_ 0 [0xA2, 0x00, 0x00]))) = some 0x90 := by decide

/-- A16. -/
theorem test_div_floor :
    after (fun t => (t.reg 0, t.reg 1)) (step (regs_ 0 [0xFF, 0x02] (at_ 0 [0xA3, 0x00, 0x01]))) =
      some (0x7F, 0x02) := by decide

/-- A17. -/
theorem test_div_by_zero :
    after (fun t => (t.reg 0, t.pc, t.status))
      (step (regs_ 0 [0x65, 0x00] (at_ 0 [0xA3, 0x00, 0x01]))) =
      some (0x65, 0, .faulted .divisionByZero) := by decide

/-- A23. -/
theorem test_inc_wraps :
    after (fun t => (t.reg 0, t.pc)) (step (regs_ 0 [0xFF] (at_ 0 [0x65, 0x00]))) =
      some (0x00, 2) := by decide

/-- A25: no stack check. -/
theorem test_inc_r7 : after State.sp (step (at_ 0 [0x65, 0x07])) = some 0xF5 := by decide

/-- The vectors of SUB. -/
theorem test_sub :
    alu .sub 0x05 0x03 = some 0x02 ∧ alu .sub 0x00 0x01 = some 0xFF ∧
    alu .sub 0x03 0x05 = some 0xFE ∧ alu .sub 0x80 0x80 = some 0x00 := by decide

/-! ### The stack and control transfer (vectors K) -/

/-- K2. -/
theorem test_push_r7 :
    after (fun t => (t.sp, t.load8 0xF3, t.pc)) (step (at_ 0 [0x45, 0x07])) =
      some (0xF3, 0xF3, 2) := by decide

/-- K4. -/
theorem test_push_to_cell_0 :
    after (fun t => (t.sp, t.load8 0, t.pc))
      (step (regs_ 7 [0x01] (regs_ 0 [0x99] (at_ 0x10 [0x45, 0x00])))) =
      some (0x00, 0x99, 0x12) := by decide

/-- K10. -/
theorem test_pop_r7 :
    after (fun t => (t.sp, t.pc))
      (step (cells_ 0xF3 [0x10] (regs_ 7 [0xF3] (at_ 0 [0x46, 0x07])))) = some (0x11, 2) := by decide

/-- K9. -/
theorem test_pop_above_the_stack :
    stopOf (regs_ 7 [0xFE] (at_ 0 [0x46, 0x00])) =
      some (.halted, .faulted (.stackFault .pop 0xFE), 0) := by decide

/-- K16: x[7] is read after the push. -/
theorem test_call_r7 :
    after (fun t => (t.sp, t.load8 0xF3, t.pc)) (step (at_ 0x10 [0x50, 0x07])) =
      some (0xF3, 0x12, 0x0F3) := by decide

/-- K14. -/
theorem test_call_at_top :
    stopOf (at_ 0xFE [0x50, 0x01]) = some (.halted, .faulted (.memoryFault 0x100), 0xFE) := by decide

/-- K17. -/
theorem test_ret :
    after (fun t => (t.pc, t.sp)) (step (cells_ 0xF3 [0x05] (regs_ 7 [0xF3] (at_ 0x12 [0x11])))) =
      some (0x005, 0xF4) := by decide

/-- K18. -/
theorem test_ret_empty_stack :
    stopOf (at_ 0 [0x11]) = some (.halted, .faulted (.stackFault .pop 0xF4), 0) := by decide

/-- K19. -/
theorem test_jmp : stopOf (regs_ 3 [0x20] (at_ 0 [0x54, 0x03])) = some (.running, .idle, 0x20) := by
  decide

/-- K21. -/
theorem test_jmp_operand_9 :
    stopOf (at_ 0 [0x54, 0x09]) = some (.halted, .faulted (.invalidRegister 0x00 0x09), 0) := by decide

/-! ### Interrupts (vectors I) -/

/-- I3. -/
theorem test_inte_mod_8 :
    after (fun t => (t.reg 6, t.pc)) (step (ls8_ (regs_ 0 [0x0A] (at_ 0 [0x52, 0x00])))) =
      some (0x04, 2) := by decide

/-- I5: the operand value is read first. -/
theorem test_inte_r6 :
    after (·.reg 6) (step (ls8_ (regs_ 6 [0x02] (at_ 0 [0x52, 0x06])))) = some 0x06 := by decide

/-- The start state of I8. -/
def i8 : State :=
  cells_ 0xF9 [0x60] (ls8_ (regs_ 0 [0x11, 0x22, 0x33, 0x44, 0x55, 0x03, 0x02] (at_ 0x30 [0x00])))

/-- I8. -/
theorem test_interrupt_entry :
    after (fun t => (t.ie, t.reg 6, cellsOf 0xEB 9 t, t.sp, t.pc)) (step i8) =
      some (false, 0x00, [0x00, 0x11, 0x22, 0x33, 0x44, 0x55, 0x03, 0x00, 0x30], 0xEB, 0x060) := by
  decide

/-- I12. -/
theorem test_interrupt_entry_no_room :
    after (fun t => (t.ie, t.reg 6, t.status)) (step (pending_ 0x08)) =
      some (true, 0x01, .faulted (.stackFault .push 0x08)) := by decide

/-- I19. -/
theorem test_range_check_before_interrupt :
    stopOf (ls8_ (regs_ 5 [0x01, 0x01] (at_ 0x100 []))) =
      some (.halted, .faulted (.memoryFault 0x100), 0x100) := by decide

/-- The start state of I16. -/
def i16 : State :=
  cells_ 0x40 [0xAA, 0x01, 0x02, 0x03, 0x04, 0x05, 0x06, 0x07, 0x50]
    { regs_ 7 [0x40] (at_ 0 [0x13]) with ie := false }

/-- I16. -/
theorem test_iret :
    after (fun t => (t.fl, t.regs.toList, t.pc, t.ie)) (step i16) =
      some (0xAA, [0x01, 0x02, 0x03, 0x04, 0x05, 0x06, 0x07, 0x49], 0x050, true) := by decide

/-- I15. -/
theorem test_iret_short_stack :
    stopOf (regs_ 7 [0xEC] (at_ 0 [0x13])) =
      some (.halted, .faulted (.stackFault .pop 0xEC), 0) := by decide

/-! ### The host (vectors H) -/

/-- H1: 257 bytes. -/
theorem test_load_too_large (bytes : List Byte) (h : bytes.length = 257) :
    load bytes State.reset = .programTooLarge := by
  simp [load, State.reset, Config.memSize, h]

/-- H7: `run` is refused after a fault; H6: it is accepted after a clean halt. -/
theorem test_run_after_halt :
    runRequest { State.reset with status := .faulted (.unknownOpcode 0x00 0xFF) } = none ∧
    (runRequest { State.reset with pc := 1, status := .cleanHalt }).map (fun t => (t.pc, t.run)) =
      some (1, .running) := by decide

/-! ### Witnesses: every obligation's hypotheses are met, clause by clause, at the values where clauses
meet -/

theorem witness_DecodeReadsExactlyTheEncodings :
    decode [0x82, 0x00, 0x08, 0x47] = .ok (.ldi 0 8, [0x47]) ∧
    [0x82, 0x00, 0x08, 0x47] = encode (.ldi 0 8) ++ [0x47] := by decide

theorem witness_LengthComesFromTheOpcodeMap :
    decode (0x82 :: [0x00, 0x08]) = .ok (.ldi 0 8, []) ∧ known 0xA1 = false := by decide

theorem witness_StepExecutesTheInstructionAtPc :
    (Fetching (at_ 0xFD [0x82, 0x00, 0x55]) ∧
      HasBytesAtPc (at_ 0xFD [0x82, 0x00, 0x55]) (encode (.ldi 0 0x55))) ∧
    (Fetching (at_ 0xFF [0x00]) ∧ HasBytesAtPc (at_ 0xFF [0x00]) (encode .nop)) := by decide

theorem witness_PlacedWordRunsAtTheNextStep : decodeTableWord 24 0x080082 = some (.ldi 0 8) := by
  decide

theorem witness_StepChecksInOrder :
    ((at_ 0x100 []).run = .running ∧ 0xFF < (at_ 0x100 []).pc) ∧
    Interrupted 0 (pending_ 0xF4) ∧
    (Fetching (at_ 0xFE [0xA0]) ∧
      0xFF < (at_ 0xFE [0xA0]).pc.toNat + operandCount ((at_ 0xFE [0xA0]).mem.read 0xFE)) := by decide

theorem witness_UnknownOpcodeNamesTheByte :
    Fetching (at_ 0xFF [0xA1]) ∧ (at_ 0xFF [0xA1]).pc = zext9 0xFF ∧
    (at_ 0xFF [0xA1]).load8 0xFF = 0xA1 ∧ known 0xA1 = false := by decide

theorem witness_FaultsArePrecise :
    (at_ 0 [0x11]).status = .idle ∧ ∃ t, step (at_ 0 [0x11]) = .next t ∧
      t.status = .faulted (.stackFault .pop 0xF4) := ⟨by decide, _, rfl, by decide⟩

theorem witness_RunMachineTransitions_step :
    State.reset.run = .halted ∧ (at_ 0 [0x01]).run = .running ∧ (at_ 0 [0x01]).status = .idle ∧
      ∃ t, step (at_ 0 [0x01]) = .next t ∧ t.status = .cleanHalt :=
  ⟨by decide, by decide, by decide, _, rfl, by decide⟩

theorem witness_RunMachineTransitions_host :
    (∃ t, runRequest State.reset = some t) ∧ ∃ t, load [0x01] State.reset = .loaded t :=
  ⟨⟨_, rfl⟩, _, rfl⟩

theorem witness_InvalidRegisterExactlyWhenIllFormed :
    (at_ 0 []).status = .idle ∧
    (∃ t, exec (.add 7 8) (at_ 0 []) = .next t ∧ t.status = .faulted (.invalidRegister 0 8)) ∧
    (∃ t, exec (.add 7 7) (at_ 0 []) = .next t ∧ (Instr.add 7 7).wf = true) :=
  ⟨by decide, ⟨_, rfl, by decide⟩, _, rfl, by decide⟩

/-- The clauses of all the instruction statements on a register operand byte. -/
theorem witness_RegisterByteAboveSeven : (7 : Byte) < 8 ∧ (7 : Byte) < 0xFF := by decide

/-- The clauses of the one-operand instruction statements on an operand past the memory. -/
theorem witness_OperandFetchFaults_one :
    ∀ op ∈ ([0x45, 0x46, 0x47, 0x50, 0x52, 0x54, 0x65] : List Byte),
      FetchesOpcode op (at_ 0xFF [op]) ∧ 0xFF < (at_ 0xFF [op]).pc.toNat + 1 := by decide

/-- The clauses of the two-operand instruction statements on an operand past the memory. -/
theorem witness_OperandFetchFaults_two :
    ∀ op ∈ ([0x82, 0x84, 0xA0, 0xA2, 0xA3] : List Byte),
      (FetchesOpcode op (at_ 0xFE [op]) ∧ 0xFF < (at_ 0xFE [op]).pc.toNat + 2) ∧
      (FetchesOpcode op (at_ 0xFF [op]) ∧ 0xFF < (at_ 0xFF [op]).pc.toNat + 2) := by decide

/-- An LDI to IM that enables a pending interrupt. -/
theorem witness_LdiLoadsTheImmediate :
    ∃ t, exec (.ldi 5 0x01) (ls8_ (regs_ 6 [0x01] (at_ 0 []))) = .next t ∧ Interrupted 0 t :=
  ⟨_, rfl, by decide⟩

theorem witness_DivFloorsOrStops :
    (regs_ 0 [0x65, 0x01] (at_ 0 [])).reg 1 ≠ 0 ∧ (regs_ 0 [0x65, 0x00] (at_ 0 [])).reg 1 = 0 := by
  decide

theorem witness_PushStoresBelowTheStack :
    (regs_ 7 [0x01] (at_ 0 [])).sp ≠ 0 ∧ (regs_ 7 [0x00] (at_ 0 [])).sp = 0 := by decide

theorem witness_PopLoadsTheTopOfStack :
    (regs_ 7 [0xF3] (at_ 0 [])).sp < 0xF4 ∧ 0xF4 ≤ (regs_ 7 [0xF4] (at_ 0 [])).sp ∧
    ((6 : RegIdx) ≠ 7 ∧ (7 : RegIdx) = 7) := by decide

theorem witness_CallPushesTheReturnAddress :
    ((regs_ 7 [0x01] (at_ 0xFD [])).pc.toNat + 2 ≤ 0xFF ∧ (regs_ 7 [0x01] (at_ 0xFD [])).sp ≠ 0) ∧
    (at_ 0xFE []).pc = 0xFE ∧
    ((regs_ 7 [0x00] (at_ 0xFD [])).pc.toNat + 2 ≤ 0xFF ∧ (regs_ 7 [0x00] (at_ 0xFD [])).sp = 0) := by
  decide

theorem witness_RetPopsThePc :
    (regs_ 7 [0xF3] (at_ 0 [])).sp < 0xF4 ∧ 0xF4 ≤ (regs_ 7 [0xF4] (at_ 0 [])).sp := by decide

/-- Both named policies. -/
theorem witness_InteAsksThePolicy :
    (at_ 0 []).policy = .none ∧ (ls8_ (at_ 0 [])).policy = .ls8 ∧ 7 < 8 := by decide

theorem witness_IretRestoresTheFrame :
    (regs_ 7 [0xEB] (at_ 0 [])).sp ≤ 0xEB ∧ 0xEB < (regs_ 7 [0xEC] (at_ 0 [])).sp := by decide

theorem witness_AluComputesItsFourOperations : (1 : Byte) ≠ 0 ∧ (0 : Byte) = 0 := by decide

theorem witness_AluWritesNoFlag :
    (∃ t, exec (.add 0 1) (at_ 0 []) = .next t) ∧ (∃ t, exec (.mul 0 1) (at_ 0 []) = .next t) ∧
    (∃ t, exec (.div 0 1) (at_ 0 []) = .next t) ∧ ∃ t, exec (.inc 0) (at_ 0 []) = .next t :=
  ⟨⟨_, rfl⟩, ⟨_, rfl⟩, ⟨_, rfl⟩, _, rfl⟩

/-- A divisor that is not zero, also where both operands are one register. -/
theorem witness_AluResultGoesToTheFirstOperand :
    (regs_ 0 [0x09] (at_ 0 [])).reg 0 ≠ 0 := by decide

theorem witness_PushThenPopMovesTheValue :
    (6 : RegIdx) ≠ 7 ∧ ((regs_ 7 [0x01] (at_ 0 [])).sp ≠ 0 ∧ (regs_ 7 [0x01] (at_ 0 [])).sp ≤ 0xF4) ∧
    ((at_ 0 []).sp ≠ 0 ∧ (at_ 0 []).sp ≤ 0xF4) := by decide

/-- K13: a CALL, and the state it leaves as the RET's. -/
theorem witness_CallThenRetResumesAfterTheCall :
    (at_ 0xFD []).pc.toNat + 2 ≤ 0xFF ∧ (at_ 0xFD []).sp ≠ 0 ∧ (at_ 0xFD []).sp ≤ 0xF4 ∧
    ∃ t, exec (.call 1) (at_ 0xFD []) = .next t ∧ ∃ u : State, u.sp = t.sp ∧
      u.load8 t.sp = t.load8 t.sp :=
  ⟨by decide, by decide, by decide, _, rfl, _, rfl, rfl⟩

theorem witness_StackFaultCauses_push :
    (∀ op ∈ ([0x45, 0x50] : List Byte),
      after (·.status) (step (regs_ 7 [0x00] (at_ 0 [op]))) = some (.faulted (.stackFault .push 0x00)) ∧
      (regs_ 7 [0x00] (at_ 0 [op])).status = .idle) ∧
    after (·.status) (step (pending_ 0x08)) = some (.faulted (.stackFault .push 0x08)) ∧
      (pending_ 0x08).status = .idle := by decide

theorem witness_StackFaultCauses_pop :
    (∀ op ∈ ([0x46, 0x11] : List Byte),
      after (·.status) (step (at_ 0 [op])) = some (.faulted (.stackFault .pop 0xF4)) ∧
      (at_ 0 [op]).status = .idle) ∧
    after (·.status) (step (regs_ 7 [0xEC] (at_ 0 [0x13]))) =
      some (.faulted (.stackFault .pop 0xEC)) := by decide

theorem witness_InterruptEntryBuildsTheFrame :
    (Interrupted 0 (pending_ 0x09) ∧ 9 ≤ (pending_ 0x09).sp) ∧ Interrupted 1 i8 ∧ 9 ≤ i8.sp := by decide

theorem witness_InterruptEntryWithoutRoomFaults :
    Interrupted 0 (pending_ 0x08) ∧ (pending_ 0x08).sp < 9 := by decide

/-- The state an entry leaves is one that finds the frame untouched. -/
theorem witness_IretResumesTheInterruptedProgram :
    (Interrupted 0 (pending_ 0x09) ∧ 9 ≤ (pending_ 0x09).sp ∧ (pending_ 0x09).sp ≤ 0xF4) ∧
    (Interrupted 1 i8 ∧ 9 ≤ i8.sp ∧ i8.sp ≤ 0xF4) ∧
    ∃ t, step i8 = .next t ∧ ∃ u : State, u.sp = t.sp ∧
      ∀ k : Byte, k < 9 → u.load8 (t.sp + k) = t.load8 (t.sp + k) :=
  ⟨by decide, by decide, _, rfl, _, rfl, fun _ _ => rfl⟩

theorem witness_RetIsNoReturnFromAnInterrupt :
    (regs_ 7 [0xEB] (at_ 0 [])).sp ≤ 0xEB ∧ Interrupted 0 (pending_ 0x09) ∧ 9 ≤ (pending_ 0x09).sp ∧
    (pending_ 0x09).sp ≤ 0xF4 ∧ ∃ t, step (pending_ 0x09) = .next t :=
  ⟨by decide, by decide, by decide, by decide, _, rfl⟩

theorem witness_AcceptanceChangesOnlyByEntryAndIret :
    (∃ t, step i8 = .next t ∧ t.ie ≠ i8.ie) ∧ (∃ t, step i16 = .next t ∧ t.ie ≠ i16.ie) :=
  ⟨⟨_, rfl, by decide⟩, _, rfl, by decide⟩

/-- IE is 0 while the policy has an interrupt to deliver, which IE = 1 would take. -/
theorem witness_AcceptanceChangesOnlyByEntryAndIret_masked :
    { pending_ 0xF4 with ie := false }.ie = false ∧
    { pending_ 0xF4 with ie := false }.pol.select 0x01 0x01 = some 0 ∧
    boundary (pending_ 0xF4) = .enters 0 := by decide

/-- I11. -/
theorem test_interrupt_masked_by_ie :
    after (fun t => (t.pc, t.reg 6)) (step { pending_ 0xF4 with ie := false }) =
      some (0x21, 0x01) := by decide

theorem witness_PolicyNoneDeliversNothing :
    (at_ 0xFF []).policy = .none ∧ (at_ 0xFF []).run = .running ∧ (at_ 0xFF []).pc ≤ 0xFF := by decide

/-- I9: both sides of the selection, and its absence. -/
theorem witness_PolicyLs8Functions :
    (policyOf .ls8).select 0xFF 0x84 = some 2 ∧ (policyOf .ls8).select 0x01 0x02 = none := by decide

theorem witness_RegistersWrittenAreThoseListed :
    (∃ t, exec (.pop 2) (regs_ 7 [0xF2] (at_ 0 [])) = .next t) ∧ regByte 3 ∉ writesRegs (.pop 2) :=
  ⟨⟨_, rfl⟩, by decide⟩

theorem witness_CellsWrittenAreThoseListed :
    (∃ t, exec (.st 2 0) (regs_ 0 [0x58, 0, 0x80] (at_ 0 [])) = .next t) ∧
    (0x81 : Byte) ∉ storesTo (.st 2 0) (regs_ 0 [0x58, 0, 0x80] (at_ 0 [])) := ⟨⟨_, rfl⟩, by decide⟩

theorem witness_FlagsChangeOnlyByIret : ∃ t, step i16 = .next t ∧ t.fl ≠ i16.fl :=
  ⟨_, rfl, by decide⟩

theorem witness_FlagsAreReadOnlyByEntry :
    Fetching (at_ 0 [0x65, 0x00]) ∧ (at_ 0 [0x65, 0x00]).mem.read 0 ≠ 0x13 ∧
    ∃ t, step (at_ 0 [0x65, 0x00]) = .next t := ⟨by decide, by decide, _, rfl⟩

theorem witness_OutputGrowsOnlyByPrn :
    ∃ t, step (at_ 0 [0x47, 0x07]) = .next t ∧ t.out ≠ (at_ 0 [0x47, 0x07]).out :=
  ⟨_, rfl, by decide⟩

theorem witness_PolicyNeverChanges :
    (∃ t, step i8 = .next t) ∧ (∃ t, runRequest State.reset = some t) ∧
    ∃ t, load [0x01] State.reset = .loaded t := ⟨⟨_, rfl⟩, ⟨_, rfl⟩, _, rfl⟩

theorem witness_PolicyMattersOnlyToInterrupts :
    Fetching (at_ 0 [0x65, 0x00]) ∧ Fetching (ls8_ (at_ 0 [0x65, 0x00])) ∧
    (at_ 0 [0x65, 0x00]).mem.read 0 ≠ 0x52 ∧ ∃ t, step (at_ 0 [0x65, 0x00]) = .next t :=
  ⟨by decide, by decide, by decide, _, rfl⟩

/-- Two orders of writing that leave the same memory. -/
theorem witness_CanonicalMemoriesAreEqualData :
    (Memory.write (Memory.write [] 0x80 0x58) 0x40 0x01).wf ∧ (Memory.write [] 0x40 0x01).wf := by
  decide

theorem witness_ResetLeavesTheStatedValues : (6 : RegIdx) ≠ 7 := by decide

theorem witness_LoadWritesFromAddressZero :
    (at_ 0 []).run = .running ∧ State.reset.run = .halted ∧
    256 < (List.replicate 257 (0x01 : Byte)).length ∧
    (List.replicate 256 (0x01 : Byte)).length ≤ 256 :=
  ⟨rfl, rfl, by rw [List.length_replicate]; decide, by rw [List.length_replicate]⟩

theorem witness_RunIsRefusedAfterAFault :
    (State.reset.run = .halted ∧ State.reset.status = .idle) ∧
    ({ State.reset with status := .cleanHalt } : State).status = .cleanHalt ∧
    ({ State.reset with status := .faulted .divisionByZero } : State).status =
      .faulted .divisionByZero ∧ (at_ 0 []).run = .running := by decide

theorem witness_TraceShowsTheBoundary : ∀ k : Nat, k < 3 →
    (trace (at_ 0xFE [0x82, 0x07])).bytes[k]? = [some (some 0x82), some (some 0x07), some none][k]! := by
  decide

theorem witness_RunEndsAtTheFirstHalt :
    (at_ 0 [0x01]).run = .running ∧ (runFor 1 (at_ 0 [0x01])).run = .halted ∧
    (runFor 1 (at_ 0 [0x00])).run = .running := by decide

/-- A state that meets the invariant, and a step from it; the second halts on a fault it then records. -/
theorem witness_EveryStepKeepsTheInvariant :
    (at_ 0 [0x45, 0x00]).Inv ∧ (∃ t, step (at_ 0 [0x45, 0x00]) = .next t ∧ t.mem.wf) ∧
    ∃ t, step (regs_ 7 [0x00] (at_ 0 [0x45, 0x00])) = .next t ∧
      t.status = .faulted (.stackFault .push 0x00) ∧ t.sp = 0 :=
  ⟨⟨by decide, by decide, fun _ => rfl, trivial⟩, ⟨_, rfl, by decide⟩, _, rfl, by decide, by decide⟩

theorem witness_HostOperationsKeepTheInvariant :
    State.reset.Inv ∧ (∃ t, load [0x01] State.reset = .loaded t) ∧
    ∃ t, runRequest State.reset = some t :=
  ⟨⟨by decide, by decide, fun h => (RunState.noConfusion h), trivial⟩, ⟨_, rfl⟩, _, rfl⟩

end Sys2Proof.Tests
end

/-! Encoding: the length of an instruction (spec/30_encoding.md R71). -/
section
namespace Sys2Proof

theorem lookup_eq_none_of_not_known {op : Byte} (h : known op = false) : lookup op = none := by
  simpa [known] using h

theorem operandCount_of_lookup {op : Byte} {form : Form} (h : lookup op = some form) :
    operandCount op = form.operandCount := by
  simp [operandCount, h]

/-- R65: nothing after an opcode byte outside the map is examined. -/
theorem decode_of_lookup_none {op : Byte} (h : lookup op = none) (bytes : List Byte) :
    decode (op :: bytes) = .error (.unknownOpcode op) := by
  simp [decode, h]

/-- The operand bytes that a successful decode consumes are those of the opcode's format: where fewer
are there, the decoder has rejected the bytes with `missingByte`. -/
theorem length_of_decode_ok {op : Byte} {form : Form} {bytes rest : List Byte} {i : Instr}
    (hform : lookup op = some form) (h : decode (op :: bytes) = .ok (i, rest)) :
    bytes.length = form.operandCount + rest.length := by
  cases form with
  | f0 instr =>
    obtain ⟨-, rfl⟩ : instr = i ∧ bytes = rest := by simpa [decode, hform] using h
    simp [Form.operandCount]
  | f1 mk =>
    match bytes with
    | [] => simp [decode, hform] at h
    | a :: tail =>
      obtain ⟨-, rfl⟩ : mk a = i ∧ tail = rest := by simpa [decode, hform] using h
      simp only [List.length_cons, Form.operandCount]
      omega
  | f2r mk | f2i mk =>
    match bytes with
    | [] | [_] => simp [decode, hform] at h
    | a :: b :: tail =>
      obtain ⟨-, rfl⟩ : mk a b = i ∧ tail = rest := by simpa [decode, hform] using h
      simp only [List.length_cons, Form.operandCount]
      omega

/-- Settles O3: a byte in the map has a format, which fixes how many bytes a successful decode
consumes; a byte outside it is rejected before any operand byte is read. -/
theorem lengthComesFromTheOpcodeMap : Obligations.LengthComesFromTheOpcodeMap := by
  unfold Obligations.LengthComesFromTheOpcodeMap
  refine ⟨fun op bytes rest i h => ?_, fun op bytes hop =>
    decode_of_lookup_none (lookup_eq_none_of_not_known hop) bytes⟩
  cases hform : lookup op with
  | none => simp [decode_of_lookup_none hform] at h
  | some form =>
    have hlen := length_of_decode_ok hform h
    rw [List.length_cons, operandCount_of_lookup hform]
    omega

end Sys2Proof
end

/-! The ALU: no instruction but IRET writes FL (spec/42_alu.md R116). -/
section
namespace Sys2Proof.Machine

/-- R116: a fault leaves FL alone, and an instruction that completes writes it only if it is IRET. -/
theorem fl_of_exec_of_ne_iret {i : Instr} {s t : State} (hi : i ≠ .iret) (h : exec i s = .next t) :
    t.fl = s.fl := by
  cases exec_outcome i s t h with
  | faults f ht => rw [ht]; rfl
  | completes _ _ _ flags _ _ =>
    rcases flags with ⟨hfl, -⟩ | ⟨rfl, -⟩
    · exact hfl
    · exact absurd rfl hi

/-- Settles O30: none of ADD, MUL, DIV and INC is IRET, the one instruction that writes FL. -/
theorem aluWritesNoFlag : Obligations.AluWritesNoFlag := by
  unfold Obligations.AluWritesNoFlag
  rintro a b s t (hadd | hmul | hdiv | hinc)
  · exact fl_of_exec_of_ne_iret Instr.noConfusion hadd
  · exact fl_of_exec_of_ne_iret Instr.noConfusion hmul
  · exact fl_of_exec_of_ne_iret Instr.noConfusion hdiv
  · exact fl_of_exec_of_ne_iret Instr.noConfusion hinc

end Sys2Proof.Machine
end

/-! Encoding: decode inverts encode, both ways (spec/30_encoding.md sections 1 to 3). -/
section
namespace Sys2Proof

/-- What a row of the opcode map promises of the encoder: the instructions its format builds are encoded
with the row's opcode byte, then the operand bytes in order (R61). -/
def Form.EncodesWith (op : Byte) : Form → Prop
  | .f0 i => encode i = [op]
  | .f1 mk => ∀ a, encode (mk a) = [op, a]
  | .f2r mk => ∀ a b, encode (mk a b) = [op, a, b]
  | .f2i mk => ∀ a imm, encode (mk a imm) = [op, a, imm]

theorem mem_opcodeMap_of_lookup {op : Byte} {form : Form} (h : lookup op = some form) :
    (op, form) ∈ opcodeMap := by
  obtain ⟨⟨op', form'⟩, hfind, rfl⟩ := Option.map_eq_some_iff.mp h
  obtain rfl : op' = op := by simpa using List.find?_some hfind
  exact List.mem_of_find?_eq_some hfind

/-- The encoder agrees with the opcode map, row by row. -/
theorem encodesWith_of_lookup {op : Byte} {form : Form} (h : lookup op = some form) :
    form.EncodesWith op := by
  have rows : ∀ row ∈ opcodeMap, row.2.EncodesWith row.1 := by
    simp [opcodeMap, Form.EncodesWith, encode]
  exact rows _ (mem_opcodeMap_of_lookup h)

/-- The opcode bytes of every row find that row, so what follows an encoding is left as the rest. -/
theorem decode_encode_append (i : Instr) (rest : List Byte) :
    decode (encode i ++ rest) = .ok (i, rest) := by
  cases i <;> rfl

theorem eq_encode_append_of_decode {bytes rest : List Byte} {i : Instr}
    (h : decode bytes = .ok (i, rest)) : bytes = encode i ++ rest := by
  match bytes with
  | [] => simp [decode] at h
  | op :: operands =>
    cases hform : lookup op with
    | none => simp [decode_of_lookup_none hform] at h
    | some form =>
      have henc := encodesWith_of_lookup hform
      cases form with
      | f0 instr =>
        obtain ⟨rfl, rfl⟩ : instr = i ∧ operands = rest := by simpa [decode, hform] using h
        rw [show encode instr = [op] from henc, List.singleton_append]
      | f1 mk =>
        match operands with
        | [] => simp [decode, hform] at h
        | a :: tail =>
          obtain ⟨rfl, rfl⟩ : mk a = i ∧ tail = rest := by simpa [decode, hform] using h
          rw [henc a, List.cons_append, List.singleton_append]
      | f2r mk | f2i mk =>
        match operands with
        | [] | [_] => simp [decode, hform] at h
        | a :: b :: tail =>
          obtain ⟨rfl, rfl⟩ : mk a b = i ∧ tail = rest := by simpa [decode, hform] using h
          rw [henc a b, List.cons_append, List.cons_append, List.singleton_append]

/-- Settles O1: the opcode byte finds its row, and the encoder and the decoder agree on each row. -/
theorem decodeReadsExactlyTheEncodings : Obligations.DecodeReadsExactlyTheEncodings := by
  unfold Obligations.DecodeReadsExactlyTheEncodings
  intro bytes rest i
  exact ⟨eq_encode_append_of_decode, fun h => h ▸ decode_encode_append i rest⟩

theorem exists_decode_eq_ok_iff (bytes : List Byte) (i : Instr) :
    (∃ rest, decode bytes = .ok (i, rest)) ↔ encode i <+: bytes := by
  simp only [decodeReadsExactlyTheEncodings bytes _ i, List.IsPrefix, eq_comm]

/-- Settles O2: the map is a constant, and each of the 256 bytes is looked up in it. -/
theorem opcodeMapIsTheSpecs : Obligations.OpcodeMapIsTheSpecs := by
  unfold Obligations.OpcodeMapIsTheSpecs
  exact ⟨by decide +revert, by decide⟩

/-- Settles O4: each word is an encoding followed by what is left. -/
theorem specWordsDecode : Obligations.SpecWordsDecode := by
  unfold Obligations.SpecWordsDecode
  exact ⟨decode_encode_append (.ldi 0 8) _, decode_encode_append (.prn 0) _, decode_encode_append .hlt [],
    decode_encode_append (.add 0 1) [], decode_encode_append (.mul 0 1) [],
    decode_encode_append (.st 2 0) [], decode_encode_append (.call 1) [],
    decode_encode_append .iret []⟩

/-- The law of the family EncodeLength, for every instruction. -/
theorem encode_eq_cons (i : Instr) : Laws.EncodeLength.Statement i := by
  cases i with
  | nop => exact Laws.EncodeLength.nop
  | hlt => exact Laws.EncodeLength.hlt
  | ret => exact Laws.EncodeLength.ret
  | iret => exact Laws.EncodeLength.iret
  | push a => exact Laws.EncodeLength.push a
  | pop a => exact Laws.EncodeLength.pop a
  | prn a => exact Laws.EncodeLength.prn a
  | call a => exact Laws.EncodeLength.call a
  | inte a => exact Laws.EncodeLength.inte a
  | jmp a => exact Laws.EncodeLength.jmp a
  | inc a => exact Laws.EncodeLength.inc a
  | ldi a imm => exact Laws.EncodeLength.ldi a imm
  | st a b => exact Laws.EncodeLength.st a b
  | add a b => exact Laws.EncodeLength.add a b
  | mul a b => exact Laws.EncodeLength.mul a b
  | div a b => exact Laws.EncodeLength.div a b

theorem encode_length_le (i : Instr) : (encode i).length ≤ 3 := by
  obtain ⟨op, operands, h, -, -, hle⟩ := encode_eq_cons i
  simp only [h, List.length_cons]
  omega

end Sys2Proof
end

/-! The fetch and the boundary: which instruction a step executes, and the order of its checks
(spec/40_fsm_control.md R81). -/
section
namespace Sys2Proof.Machine

/-! ### The bytes the fetch reads -/

theorem length_fetchWindow {s : State} (hp : s.pc ≤ 0xFF) :
    (fetchWindow s).length = min 3 (256 - s.pc.toNat) := by
  have hp' : s.pc.toNat ≤ 255 := hp
  rw [fetchWindow_eq hp]
  split
  · split <;> simp only [List.length_cons, List.length_nil] <;> omega
  · simp only [List.length_cons, List.length_nil]
    omega

theorem getElem_fetchWindow {s : State} (hp : s.pc ≤ 0xFF) (k : Nat) (hk : k < (fetchWindow s).length) :
    (fetchWindow s)[k] = s.mem.read (s.pc.toNat + k) := by
  have h3 : k < 3 := by rw [length_fetchWindow hp] at hk; omega
  simp only [fetchWindow_eq hp] at hk ⊢
  interval_cases k <;> grind

/-- The window begins with these bytes exactly when they stand in memory from PC on. -/
theorem isPrefix_fetchWindow_iff {s : State} (hp : s.pc ≤ 0xFF) {bytes : List Byte}
    (hlen : bytes.length ≤ 3) : bytes <+: fetchWindow s ↔ HasBytesAtPc s bytes := by
  have hp' : s.pc.toNat ≤ 255 := hp
  have hwindow := length_fetchWindow hp
  rw [List.prefix_iff_getElem]
  constructor
  · rintro ⟨hle, h⟩
    exact ⟨by omega, fun k hk => by rw [h k hk, getElem_fetchWindow hp]⟩
  · rintro ⟨hle, h⟩
    exact ⟨by omega, fun k hk => by rw [← h k hk, getElem_fetchWindow hp]⟩

theorem fetch_eq_ok_iff_decode (s : State) (i : Instr) :
    fetch s = .ok i ↔ ∃ rest, decode (fetchWindow s) = .ok (i, rest) := by
  unfold fetch
  split <;> simp_all

/-- In range, the fetch yields an instruction exactly when its bytes stand at PC. -/
theorem fetch_eq_ok_iff {s : State} (hp : s.pc ≤ 0xFF) (i : Instr) :
    fetch s = .ok i ↔ HasBytesAtPc s (encode i) := by
  rw [fetch_eq_ok_iff_decode, exists_decode_eq_ok_iff, isPrefix_fetchWindow_iff hp (encode_length_le i)]

theorem fetch_of_not_known {s : State} (hp : s.pc ≤ 0xFF) (h : known (s.mem.read s.pc.toNat) = false) :
    fetch s = .error (.unknownOpcode (low8 s.pc) (s.mem.read s.pc.toNat)) := by
  rw [fetch, fetchWindow_eq hp, decode_of_lookup_none (lookup_eq_none_of_not_known h)]

/-- The opcode byte of a fetched instruction, and how far it extends, are read off its encoding. -/
theorem opcode_of_fetch {s : State} (hp : s.pc ≤ 0xFF) {i : Instr} (h : fetch s = .ok i) {op : Byte}
    {operands : List Byte} (henc : encode i = op :: operands) :
    s.mem.read s.pc.toNat = op ∧ s.pc.toNat + operands.length ≤ 0xFF := by
  obtain ⟨hlen, hbytes⟩ := (fetch_eq_ok_iff hp i).mp h
  simp only [henc, List.length_cons] at hlen hbytes
  exact ⟨hbytes 0 (by omega), by omega⟩

theorem fetchesOpcode_of_fetch {s : State} (hs : Fetching s) {i : Instr} (h : fetch s = .ok i) {op : Byte}
    {operands : List Byte} (henc : encode i = op :: operands) : FetchesOpcode op s :=
  ⟨hs, (opcode_of_fetch hs.2.1 h henc).1⟩

/-- The operand byte of a fetched instruction that has one stands after its opcode byte. -/
theorem operand_of_fetch {s : State} (hp : s.pc ≤ 0xFF) {i : Instr} (h : fetch s = .ok i) {op a : Byte}
    {operands : List Byte} (henc : encode i = op :: a :: operands) :
    s.mem.read (s.pc.toNat + 1) = a := by
  obtain ⟨-, hbytes⟩ := (fetch_eq_ok_iff hp i).mp h
  simp only [henc] at hbytes
  exact hbytes 1 (by simp)

/-- Where the opcode's operand bytes extend past the memory the fetch fails at `0x100` (R82, R167). -/
theorem fetch_of_operands_past_memory {s : State} (hp : s.pc ≤ 0xFF)
    (h : 0xFF < s.pc.toNat + operandCount (s.mem.read s.pc.toNat)) :
    fetch s = .error (.memoryFault 0x100) := by
  have hp' : s.pc.toNat ≤ 255 := hp
  cases hf : fetch s with
  | ok i =>
    obtain ⟨op, operands, henc, -, hcount, -⟩ := encode_eq_cons i
    obtain ⟨rfl, hle⟩ := opcode_of_fetch hp hf henc
    omega
  | error f =>
    rcases fetch_error_cases hp hf with ⟨-, hunknown⟩ | ⟨rfl, -⟩
    · have hcount : operandCount (s.mem.read s.pc.toNat) = 0 := by
        simp [operandCount, lookup_eq_none_of_not_known hunknown]
      omega
    · rfl

/-! ### The step -/

/-- Settles O5: the fetch yields the instruction whose bytes stand at PC. -/
theorem stepExecutesTheInstructionAtPc : Obligations.StepExecutesTheInstructionAtPc := by
  unfold Obligations.StepExecutesTheInstructionAtPc
  intro s i hs hbytes
  exact step_of_fetch_ok hs ((fetch_eq_ok_iff hs.2.1 i).mpr hbytes)

theorem pc_placeInstruction_le (bytes : List Byte) (s : State) :
    (placeInstruction bytes s).pc.toNat ≤ 0xFD := by
  change (placeAt s).toNat ≤ 0xFD
  unfold placeAt
  split
  · assumption
  · decide

/-- Placing an instruction leaves nothing in the way of its fetch (log 5). -/
theorem fetching_placeInstruction (bytes : List Byte) (s : State) :
    Fetching (placeInstruction bytes s) := by
  have hp := pc_placeInstruction_le bytes s
  refine ⟨rfl, BitVec.le_def.mpr (hp.trans (by decide)), ?_⟩
  cases hacc : acceptedInterrupt s with
  | none =>
    rcases (acceptedInterrupt_eq_none_iff s).mp hacc with hie | hsel
    · exact .inl (by simp [placeInstruction, hie])
    · exact .inr hsel
  | some n => exact .inl (by simp [placeInstruction, hacc])

theorem hasBytesAtPc_placeInstruction {bytes pre : List Byte} (hlen : bytes.length ≤ 3)
    (hpre : pre <+: bytes) (s : State) : HasBytesAtPc (placeInstruction bytes s) pre := by
  have hp := pc_placeInstruction_le bytes s
  have hle := hpre.length_le
  refine ⟨by omega, fun k hk => ?_⟩
  have hread := Memory.read_writeList s.mem (placeAt s).toNat ((placeAt s).toNat + k) bytes
  rw [dif_pos ⟨by omega, by omega⟩] at hread
  simp only [Nat.add_sub_cancel_left] at hread
  rw [hpre.getElem hk]
  exact hread

/-- Settles O6: the placed word begins with the instruction's encoding, and nothing comes before its
fetch. -/
theorem placedWordRunsAtTheNextStep : Obligations.PlacedWordRunsAtTheNextStep := by
  unfold Obligations.PlacedWordRunsAtTheNextStep
  intro s nbits w i h
  have hpre : encode i <+: wordBytes nbits w := by
    rw [← exists_decode_eq_ok_iff]
    unfold decodeTableWord at h
    split at h
    · cases h
      exact ⟨_, ‹_›⟩
    · cases h
  exact stepExecutesTheInstructionAtPc _ i (fetching_placeInstruction _ s)
    (hasBytesAtPc_placeInstruction (by simp [wordBytes]) hpre s)

/-- Settles O7: the boundary checks PC, then the interrupt, then the operand fetch. -/
theorem stepChecksInOrder : Obligations.StepChecksInOrder := by
  unfold Obligations.StepChecksInOrder
  intro s hrun
  exact ⟨step_of_out_of_range hrun, fun n => step_of_interrupted, fun hs h =>
    step_of_fetch_error hs (fetch_of_operands_past_memory hs.2.1 h)⟩

theorem operandFetchFaults {op : Byte} {n : Nat} (h : operandCount op = n) : OperandFetchFaults op n := by
  rintro s ⟨hs, rfl⟩ hn
  exact (stepChecksInOrder s hs.1).2.2 hs (h ▸ hn)

/-- Settles O8: the decoder rejects the opcode byte before it looks at any other. -/
theorem unknownOpcodeNamesTheByte : Obligations.UnknownOpcodeNamesTheByte := by
  unfold Obligations.UnknownOpcodeNamesTheByte
  intro s p b hs hpc hb hknown
  have hread : s.mem.read s.pc.toNat = b := by rw [hpc, toNat_zext9]; exact hb
  have hf := fetch_of_not_known hs.2.1 (hread ▸ hknown)
  rw [hread, hpc, low8_zext9] at hf
  exact step_of_fetch_error hs hf

end Sys2Proof.Machine
end

/-! What executing an instruction can do, taken apart once: the faults it can raise, and the state it makes
where it completes. The frames and the invariant are case splits on these two relations. -/
section
namespace Sys2Proof.Machine

/-- `RaisedBy i s f`: executing `i` in `s` raises `f` (the rows of spec/60_exceptions.md R160 that an
instruction can cause). -/
inductive RaisedBy : Instr → State → Fault → Prop
  | illFormed {i : Instr} {b : Byte} {s : State} (hi : i.wf = false) (hb : isRegByte b = false) :
      RaisedBy i s (.invalidRegister (low8 s.pc) b)
  | pushFull (r : RegIdx) {s : State} (h : s.sp = 0) :
      RaisedBy (.push (regByte r)) s (.stackFault .push s.sp)
  | callPastMemory (r : RegIdx) {s : State} (h : 0xFF < s.pc.toNat + 2) :
      RaisedBy (.call (regByte r)) s (.memoryFault (s.pc + 2))
  | callFull (r : RegIdx) {s : State} (hp : s.pc.toNat + 2 ≤ 0xFF) (h : s.sp = 0) :
      RaisedBy (.call (regByte r)) s (.stackFault .push s.sp)
  | popEmpty (r : RegIdx) {s : State} (h : 0xF4 ≤ s.sp) :
      RaisedBy (.pop (regByte r)) s (.stackFault .pop s.sp)
  | retEmpty {s : State} (h : 0xF4 ≤ s.sp) : RaisedBy .ret s (.stackFault .pop s.sp)
  | iretEmpty {s : State} (h : 0xEB < s.sp) : RaisedBy .iret s (.stackFault .pop s.sp)
  | divZero (ra rb : RegIdx) {s : State} (h : s.reg rb = 0) :
      RaisedBy (.div (regByte ra) (regByte rb)) s .divisionByZero

/-- `Makes i s t`: executing `i` in `s` completes in the state `t`. -/
inductive Makes : Instr → State → State → Prop
  | nop {s : State} : Makes .nop s (s.advance 1)
  | hlt {s : State} : Makes .hlt s ((s.advance 1).haltWith .cleanHalt)
  | ret {s : State} (h : s.sp < 0xF4) : Makes .ret s (dropTop (s.setPc (zext9 (s.load8 s.sp))))
  | iret {s : State} (h : s.sp ≤ 0xEB) : Makes .iret s (returned s)
  | push (r : RegIdx) {s : State} (h : s.sp ≠ 0) :
      Makes (.push (regByte r)) s ((pushed (if r = 7 then pushSlot s else s.reg r) s).advance 2)
  | pop (r : RegIdx) {s : State} (h : s.sp < 0xF4) :
      Makes (.pop (regByte r)) s ((dropTop (s.setReg r (s.load8 s.sp))).advance 2)
  | prn (r : RegIdx) {s : State} : Makes (.prn (regByte r)) s ((s.emitPrint (s.reg r)).advance 2)
  | call (r : RegIdx) {s : State} (hp : s.pc.toNat + 2 ≤ 0xFF) (h : s.sp ≠ 0) :
      Makes (.call (regByte r)) s
        ((pushed (low8 (s.pc + 2)) s).setPc (zext9 (if r = 7 then pushSlot s else s.reg r)))
  | inte (r : RegIdx) {s : State} :
      Makes (.inte (regByte r)) s ((s.setReg 6 (s.pol.inte (s.reg 6) (s.reg r))).advance 2)
  | jmp (r : RegIdx) {s : State} : Makes (.jmp (regByte r)) s (s.setPc (zext9 (s.reg r)))
  | inc (r : RegIdx) {s : State} {w : Byte} (h : alu .add (s.reg r) 1 = some w) :
      Makes (.inc (regByte r)) s ((s.setReg r w).advance 2)
  | ldi (r : RegIdx) (imm : Byte) {s : State} :
      Makes (.ldi (regByte r) imm) s ((s.setReg r imm).advance 3)
  | st (ra rb : RegIdx) {s : State} :
      Makes (.st (regByte ra) (regByte rb)) s
        ((s.store8 (storeAddress ra s) (s.reg rb)).advance 3)
  | add (ra rb : RegIdx) {s : State} {w : Byte} (h : alu .add (s.reg ra) (s.reg rb) = some w) :
      Makes (.add (regByte ra) (regByte rb)) s ((s.setReg ra w).advance 3)
  | mul (ra rb : RegIdx) {s : State} {w : Byte} (h : alu .mul (s.reg ra) (s.reg rb) = some w) :
      Makes (.mul (regByte ra) (regByte rb)) s ((s.setReg ra w).advance 3)
  | div (ra rb : RegIdx) {s : State} {w : Byte} (h : alu .div (s.reg ra) (s.reg rb) = some w) :
      Makes (.div (regByte ra) (regByte rb)) s ((s.setReg ra w).advance 3)

theorem aluWrite_of_alu_eq_some {op : AluOp} {ra : RegIdx} {v w : Byte} {s : State}
    (h : alu op (s.reg ra) v = some w) (len : Nat) :
    aluWrite op ra v len s = .next ((s.setReg ra w).advance len) := by
  rw [aluWrite, h]
  rfl

/-- `RaisedBy` and `Makes` between them cover every instruction in every state. -/
theorem exec_cases (i : Instr) (s : State) :
    (∃ f, RaisedBy i s f ∧ exec i s = .next (haltedOn f s)) ∨ ∃ t, Makes i s t ∧ exec i s = .next t := by
  refine exec_induction
    (P := fun i s o => (∃ f, RaisedBy i s f ∧ o = .next (haltedOn f s)) ∨ ∃ t, Makes i s t ∧ o = .next t)
    ?nop ?hlt ?ret ?iret ?push ?pop ?prn ?call ?inte ?jmp ?inc ?ldi ?st ?add ?mul ?div ?ill i s
  case nop => exact fun s => .inr ⟨_, .nop, execNop_eq s⟩
  case hlt => exact fun s => .inr ⟨_, .hlt, execHlt_eq s⟩
  case ret =>
    intro s
    rcases execRet_cases s with ⟨h, e⟩ | ⟨h, e⟩
    · exact .inl ⟨_, .retEmpty h, e⟩
    · exact .inr ⟨_, .ret h, e⟩
  case iret =>
    intro s
    rcases interruptReturn_cases s with ⟨h, e⟩ | ⟨h, e⟩
    · exact .inl ⟨_, .iretEmpty h, e⟩
    · exact .inr ⟨_, .iret h, e⟩
  case push =>
    intro r s
    rcases execPush_cases r s with ⟨h, e⟩ | ⟨h, e⟩
    · exact .inl ⟨_, .pushFull r h, e⟩
    · exact .inr ⟨_, .push r h, e⟩
  case pop =>
    intro r s
    rcases execPop_cases r s with ⟨h, e⟩ | ⟨h, e⟩
    · exact .inl ⟨_, .popEmpty r h, e⟩
    · exact .inr ⟨_, .pop r h, e⟩
  case prn => exact fun r s => .inr ⟨_, .prn r, execPrn_regByte r s⟩
  case call =>
    intro r s
    rcases execCall_cases r s with ⟨h, e⟩ | ⟨hp, h, e⟩ | ⟨hp, h, e⟩
    · exact .inl ⟨_, .callPastMemory r h, e⟩
    · exact .inl ⟨_, .callFull r hp h, e⟩
    · exact .inr ⟨_, .call r hp h, e⟩
  case inte => exact fun r s => .inr ⟨_, .inte r, execInte_regByte r s⟩
  case jmp => exact fun r s => .inr ⟨_, .jmp r, execJmp_regByte r s⟩
  case inc => exact fun r s => .inr ⟨_, .inc r rfl, execInc_regByte r s⟩
  case ldi => exact fun r imm s => .inr ⟨_, .ldi r imm, execLdi_regByte r imm s⟩
  case st => exact fun ra rb s => .inr ⟨_, .st ra rb, execSt_regByte ra rb s⟩
  case add => exact fun ra rb s => .inr ⟨_, .add ra rb rfl, execAdd_regByte ra rb s⟩
  case mul => exact fun ra rb s => .inr ⟨_, .mul ra rb rfl, execMul_regByte ra rb s⟩
  case div =>
    intro ra rb s
    rcases aluWrite_cases .div ra (s.reg rb) 3 s with ⟨w, h, e⟩ | ⟨-, h, e⟩
    · exact .inr ⟨_, .div ra rb h, (execDiv_regByte ra rb s).trans e⟩
    · exact .inl ⟨_, .divZero ra rb h, (execDiv_regByte ra rb s).trans e⟩
  case ill => exact fun i b s hi hb => .inl ⟨_, .illFormed hi hb, rfl⟩

/-- The same for an instruction that is known to answer `t`. -/
theorem exec_next_cases {i : Instr} {s t : State} (h : exec i s = .next t) :
    (∃ f, RaisedBy i s f ∧ t = haltedOn f s) ∨ Makes i s t := by
  rcases exec_cases i s with ⟨f, hf, e⟩ | ⟨u, hu, e⟩ <;> rw [e] at h <;> cases h
  · exact .inl ⟨f, hf, rfl⟩
  · exact .inr hu

/-- What `Makes` says is what `exec` answers. -/
theorem Makes.exec_eq {i : Instr} {s t : State} (h : Makes i s t) : exec i s = .next t := by
  cases h with
  | nop => exact execNop_eq s
  | hlt => exact execHlt_eq s
  | ret h => exact ((execRet_cases s).resolve_left fun hf => BitVec.not_lt.mpr hf.1 h).2
  | iret h => exact ((interruptReturn_cases s).resolve_left fun hf => BitVec.not_le.mpr hf.1 h).2
  | push r h => exact ((execPush_cases r s).resolve_left fun hf => h hf.1).2
  | pop r h => exact ((execPop_cases r s).resolve_left fun hf => BitVec.not_lt.mpr hf.1 h).2
  | prn r => exact execPrn_regByte r s
  | call r hp h =>
    rcases execCall_cases r s with ⟨hf, -⟩ | ⟨-, hf, -⟩ | ⟨-, -, e⟩
    · exact absurd hp (Nat.not_le.mpr hf)
    · exact absurd hf h
    · exact e
  | inte r => exact execInte_regByte r s
  | jmp r => exact execJmp_regByte r s
  | inc r h => exact (execInc_regByte r s).trans (aluWrite_of_alu_eq_some h 2)
  | ldi r imm => exact execLdi_regByte r imm s
  | st ra rb => exact execSt_regByte ra rb s
  | add ra rb h => exact (execAdd_regByte ra rb s).trans (aluWrite_of_alu_eq_some h 3)
  | mul ra rb h => exact (execMul_regByte ra rb s).trans (aluWrite_of_alu_eq_some h 3)
  | div ra rb h => exact (execDiv_regByte ra rb s).trans (aluWrite_of_alu_eq_some h 3)

/-- An ill-formed instruction answers the same byte in every state: the first that names no register. -/
theorem exec_of_not_wf {i : Instr} (hi : i.wf = false) :
    ∃ b, ∀ s, exec i s = .next (haltedOn (.invalidRegister (low8 s.pc) b) s) := by
  have one : ∀ (a : Byte) (k : State → RegIdx → Outcome), isRegByte a = false →
      ∃ b, ∀ s, withReg a s (k s) = .next (haltedOn (.invalidRegister (low8 s.pc) b) s) :=
    fun a k ha => ⟨a, fun s => withReg_of_above ((isRegByte_eq_false_iff a).mp ha) s (k s)⟩
  have two : ∀ (a b : Byte) (k : State → RegIdx → RegIdx → Outcome),
      (isRegByte a && isRegByte b) = false →
      ∃ c, ∀ s, withRegs a b s (k s) = .next (haltedOn (.invalidRegister (low8 s.pc) c) s) := by
    intro a b k hab
    rcases regOperand_cases a with ⟨ra, rfl, -⟩ | ⟨ha, -⟩
    · obtain ⟨c, hc⟩ := one b (fun s => k s ra) (by simpa using hab)
      exact ⟨c, fun s => (withReg_regByte ra s _).trans (hc s)⟩
    · exact one a _ ha
  cases i with
  | nop | hlt | ret | iret => cases hi
  | push a | pop a | prn a | call a | inte a | jmp a | inc a | ldi a => exact one a _ hi
  | st a b | add a b | mul a b | div a b => exact two a b _ hi

/-- What `RaisedBy` says of a well-formed instruction is what `exec` answers. -/
theorem RaisedBy.exec_eq {i : Instr} {s : State} {f : Fault} (h : RaisedBy i s f) (hi : i.wf = true) :
    exec i s = .next (haltedOn f s) := by
  cases h with
  | illFormed hill => rw [hill] at hi; cases hi
  | pushFull r h => exact ((execPush_cases r s).resolve_right fun hok => hok.1 h).2
  | callPastMemory r h =>
    exact ((execCall_cases r s).resolve_right fun hok => by
      rcases hok with ⟨hle, -⟩ | ⟨hle, -⟩ <;> omega).2
  | callFull r hp h =>
    rcases execCall_cases r s with ⟨hlt, -⟩ | ⟨-, -, e⟩ | ⟨-, hok, -⟩
    · exact absurd hp (Nat.not_le.mpr hlt)
    · exact e
    · exact absurd h hok
  | popEmpty r h => exact ((execPop_cases r s).resolve_right fun hok => BitVec.not_le.mpr hok.1 h).2
  | retEmpty h => exact ((execRet_cases s).resolve_right fun hok => BitVec.not_le.mpr hok.1 h).2
  | iretEmpty h => exact ((interruptReturn_cases s).resolve_right fun hok => BitVec.not_lt.mpr hok.1 h).2
  | divZero ra rb h => rw [execDiv_regByte, aluWrite, h]; rfl

theorem Makes.wf {i : Instr} {s t : State} (h : Makes i s t) : i.wf = true := by
  cases h <;> simp [Instr.wf]

theorem Makes.run {i : Instr} {s t : State} (h : Makes i s t) :
    KeepsRun s t ∨ (i = .hlt ∧ t.run = .halted ∧ t.status = .cleanHalt) := by
  cases h with
  | hlt => exact .inr ⟨rfl, rfl, rfl⟩
  | _ => exact .inl ⟨rfl, rfl⟩

/-- No instruction that completes leaves a fault in STATUS that was not there. -/
theorem Makes.status {i : Instr} {s t : State} (h : Makes i s t) :
    t.status = s.status ∨ t.status = .cleanHalt := by
  rcases h.run with ⟨-, hst⟩ | ⟨-, -, hst⟩
  · exact .inl hst
  · exact .inr hst

theorem RaisedBy.wf_eq_false {i : Instr} {s : State} {p b : Byte}
    (h : RaisedBy i s (.invalidRegister p b)) : i.wf = false := by
  cases h with
  | illFormed hi _ => exact hi

/-- An ill-formed instruction raises nothing but InvalidRegister (R85). -/
theorem RaisedBy.eq_invalidRegister {i : Instr} {s : State} {f : Fault} (h : RaisedBy i s f)
    (hi : i.wf = false) : ∃ p b, f = .invalidRegister p b := by
  cases h with
  | illFormed => exact ⟨_, _, rfl⟩
  | _ => simp [Instr.wf] at hi

/-- Settles O12: an instruction that completes is well-formed, and of the faults InvalidRegister alone is
an ill-formed instruction's. -/
theorem invalidRegisterExactlyWhenIllFormed : Obligations.InvalidRegisterExactlyWhenIllFormed := by
  unfold Obligations.InvalidRegisterExactlyWhenIllFormed
  intro i s t hidle h
  rcases exec_next_cases h with ⟨f, hf, rfl⟩ | hmakes
  · constructor
    · rintro ⟨p, b, hst⟩
      obtain rfl : f = .invalidRegister p b := Status.faulted.inj hst
      exact hf.wf_eq_false
    · intro hi
      obtain ⟨p, b, rfl⟩ := hf.eq_invalidRegister hi
      exact ⟨p, b, rfl⟩
  · constructor
    · rintro ⟨p, b, hst⟩
      rcases hmakes.status with h' | h' <;> rw [h'] at hst
      · rw [hidle] at hst; cases hst
      · cases hst
    · rw [hmakes.wf]
      exact Bool.noConfusion

@[simp] theorem sp_dropTop (s : State) : (dropTop s).sp = s.sp + 1 := by
  simp [dropTop]

@[simp] theorem reg_dropTop (s : State) (r : RegIdx) :
    (dropTop s).reg r = if r = 7 then s.sp + 1 else s.reg r :=
  State.reg_setReg s 7 r _

theorem ne_of_regByte_not_mem {r : RegIdx} {bytes : List Byte} (hr : regByte r ∉ bytes) (q : RegIdx)
    (hq : regByte q ∈ bytes) : r ≠ q := by
  rintro rfl
  exact hr hq

/-- Settles O42: a fault writes no register, and an instruction that completes writes those listed. -/
theorem registersWrittenAreThoseListed : Obligations.RegistersWrittenAreThoseListed := by
  unfold Obligations.RegistersWrittenAreThoseListed
  intro i s t h r hr
  rcases exec_next_cases h with ⟨f, -, rfl⟩ | hmakes
  · rfl
  · have hne := ne_of_regByte_not_mem hr
    cases hmakes with
    | nop | hlt | prn | jmp | st => rfl
    | iret => exact absurd rfl (hne r (by fin_cases r <;> decide))
    | ret | push | call => simp [hne 7 List.mem_cons_self]
    | pop q => simp [hne q List.mem_cons_self, hne 7 (List.mem_cons_of_mem _ List.mem_cons_self)]
    | inte => simp [hne 6 List.mem_cons_self]
    | inc q | ldi q | add q | mul q | div q => simp [hne q List.mem_cons_self]
/-- Settles O43: a fault writes no cell, and of what completes PUSH, CALL and ST alone store. -/
theorem cellsWrittenAreThoseListed : Obligations.CellsWrittenAreThoseListed := by
  unfold Obligations.CellsWrittenAreThoseListed
  intro i s t h a ha
  rcases exec_next_cases h with ⟨f, -, rfl⟩ | hmakes
  · rfl
  · cases hmakes with
    | push r | call r =>
      have hne : a ≠ pushSlot s := by simpa [storesTo] using ha
      simp [hne]
    | st ra rb =>
      have hne : a ≠ storeAddress ra s := by simpa [storesTo] using ha
      simp [hne]
    | _ => rfl

/-- HLT writes RUN and STATUS, PRN writes OUT, IRET writes FL and IE. -/
def writesControl : Instr → Bool
  | .hlt | .prn _ | .iret => true
  | _ => false

theorem Makes.keepsControl {i : Instr} {s t : State} (h : Makes i s t) (hi : writesControl i = false) :
    KeepsControl s t := by
  cases h with
  | hlt | prn | iret => cases hi
  | _ => exact ⟨⟨rfl, rfl⟩, ⟨rfl, rfl⟩, rfl, rfl⟩

theorem Makes.keepsRegsBut {i : Instr} {s t : State} (h : Makes i s t) {dests : List RegIdx}
    (hdests : writesRegs i = dests.map regByte) : KeepsRegsBut dests s t := by
  intro r hr
  refine registersWrittenAreThoseListed i s t h.exec_eq r ?_
  rwa [hdests, List.mem_map_of_injective fun _ _ => regByte_injective]

theorem Makes.keepsMemoryBut {i : Instr} {s t : State} (h : Makes i s t) :
    KeepsMemoryBut (storesTo i s) s t :=
  cellsWrittenAreThoseListed i s t h.exec_eq

/-- The frame of an instruction that completes: the registers and cells of the spec's lists (R12, R46),
and the control state where it is none of the three that write it. -/
theorem Makes.frame {i : Instr} {s t : State} (h : Makes i s t) {dests : List RegIdx} {cells : List Byte}
    (hdests : writesRegs i = dests.map regByte) (hcells : storesTo i s = cells)
    (hi : writesControl i = false) :
    KeepsRegsBut dests s t ∧ KeepsMemoryBut cells s t ∧ KeepsControl s t :=
  ⟨h.keepsRegsBut hdests, hcells ▸ h.keepsMemoryBut, h.keepsControl hi⟩

end Sys2Proof.Machine
end

/-! The interrupt policies the spec names (spec/60_exceptions.md R177, R178). -/
section
namespace Sys2Proof.Machine

theorem acceptedInterrupt_of_policy_none {s : State} (h : s.policy = .none) :
    acceptedInterrupt s = none := by
  have hsel : s.pol.select (s.reg 5) (s.reg 6) = none := by rw [State.pol, h]; rfl
  exact (acceptedInterrupt_eq_none_iff s).mpr (.inr hsel)

/-- Settles O40: POLICY_NONE selects nothing. -/
theorem policyNoneDeliversNothing : Obligations.PolicyNoneDeliversNothing := by
  unfold Obligations.PolicyNoneDeliversNothing
  constructor
  · intro s h
    have hnone := acceptedInterrupt_of_policy_none h
    exact ⟨hnone, boundary_ne_enters hnone⟩
  · intro s h hrun hpc
    have hs : Fetching s :=
      ⟨hrun, hpc, (acceptedInterrupt_eq_none_iff s).mp (acceptedInterrupt_of_policy_none h)⟩
    exact ⟨hs, fun n hn => not_fetching_of_interrupted hn hs⟩

/-- Bit by bit, `bitOf n` is the singleton of `n`. -/
theorem getLsbD_bitOf (n k : IntNum) : (bitOf n).getLsbD k.val = (k == n) := by
  revert n k
  decide

theorem toNat_vectorCell (n : IntNum) : (vectorCell n).toNat = 0xF8 + n.val := by
  revert n
  decide

/-- A set bit that no lower one is set before is what the search in rising order finds. -/
theorem lowestSetBit_eq_some_iff (m : Byte) (n : IntNum) :
    lowestSetBit m = some n ↔
      m.getLsbD n.val = true ∧ ∀ k : IntNum, k < n → m.getLsbD k.val = false := by
  have horder : lowestSetBit m = (List.finRange 8).find? (fun n => m.getLsbD n.val) := rfl
  rw [horder, List.find?_eq_some_iff_getElem]
  simp only [List.getElem_finRange, List.length_finRange]
  constructor
  · rintro ⟨hn, j, hj, rfl, hlow⟩
    exact ⟨hn, fun k hk => by simpa using hlow k.val hk⟩
  · rintro ⟨hn, hlow⟩
    exact ⟨hn, n.val, n.isLt, rfl, fun k hk => by simpa using hlow ⟨k, hk.trans n.isLt⟩ hk⟩

theorem lowestSetBit_eq_none_iff (m : Byte) : lowestSetBit m = none ↔ m = 0 := by
  constructor
  · intro h
    apply BitVec.eq_of_getLsbD_eq
    intro k hk
    have hmem : (⟨k, hk⟩ : IntNum) ∈ [(0 : IntNum), 1, 2, 3, 4, 5, 6, 7] := List.mem_finRange _
    simpa using List.find?_eq_none.mp h ⟨k, hk⟩ hmem
  · rintro rfl
    rfl

/-- Settles O41: each function bit by bit, from the search for the lowest bit and the singleton bit. -/
theorem policyLs8Functions : Obligations.PolicyLs8Functions := by
  unfold Obligations.PolicyLs8Functions
  refine ⟨fun im is n => ?_, fun im is => lowestSetBit_eq_none_iff _, fun is n k => ?_, fun is v k => ?_,
    fun n M => ⟨vectorCell n, toNat_vectorCell n, rfl⟩⟩
  · change lowestSetBit (im &&& is) = some n ↔ _
    simp only [lowestSetBit_eq_some_iff, BitVec.getLsbD_and, Bool.and_eq_true, and_assoc]
  · change (is &&& ~~~ bitOf n).getLsbD k.val = _
    simp only [BitVec.getLsbD_and, BitVec.getLsbD_not, getLsbD_bitOf, k.isLt, decide_true,
      Bool.true_and, bne]
  · change (is ||| bitOf (lowThreeBits v)).getLsbD k.val = _
    simp only [BitVec.getLsbD_or, getLsbD_bitOf, beq_eq_decide, Fin.ext_iff, lowThreeBits]

end Sys2Proof.Machine
end

/-! The instructions, one statement each: effect, frame, faults, encoding (spec/40_fsm_control.md to
spec/44_interrupt_instructions.md). -/
section
namespace Sys2Proof.Machine

/-! ### Register operand bytes above 7 -/

theorem withRegs_of_above_left {a : Byte} (h : 7 < a) (b : Byte) (s : State)
    (k : RegIdx → RegIdx → Outcome) :
    withRegs a b s k = .next (haltedOn (.invalidRegister (low8 s.pc) a) s) :=
  withReg_of_above h s _

theorem withRegs_of_above_right (ra : RegIdx) {b : Byte} (h : 7 < b) (s : State)
    (k : RegIdx → RegIdx → Outcome) :
    withRegs (regByte ra) b s k = .next (haltedOn (.invalidRegister (low8 s.pc) b) s) :=
  (withReg_regByte ra s _).trans (withReg_of_above h s _)

/-! ### Control and data transfer -/

/-- Settles O13: NOP's meaning is the advance alone. -/
theorem nopOnlyAdvances : Obligations.NopOnlyAdvances := by
  unfold Obligations.NopOnlyAdvances
  exact ⟨rfl, execNop_eq⟩

/-- Settles O14: HLT's meaning is the advance, then the halt. -/
theorem hltHaltsCleanly : Obligations.HltHaltsCleanly := by
  unfold Obligations.HltHaltsCleanly
  exact ⟨rfl, execHlt_eq⟩

/-- Settles O15: the register's value goes to OUT and nothing else is touched. -/
theorem prnPresentsTheRegister : Obligations.PrnPresentsTheRegister := by
  unfold Obligations.PrnPresentsTheRegister
  exact ⟨fun _ => rfl, execPrn_regByte, fun a s h => withReg_of_above h s _, operandFetchFaults rfl⟩

/-- Settles O16: an interrupt pending after the load is no part of it, but the next step's entry. -/
theorem ldiLoadsTheImmediate : Obligations.LdiLoadsTheImmediate := by
  unfold Obligations.LdiLoadsTheImmediate
  refine ⟨fun _ _ => rfl, fun r imm s => ?_, fun a imm s h => withReg_of_above h s _,
    operandFetchFaults rfl⟩
  have hmakes : Makes (.ldi (regByte r) imm) s _ := .ldi r imm
  obtain ⟨hregs, hmem, hctrl⟩ := hmakes.frame (dests := [r]) rfl rfl rfl
  exact ⟨_, hmakes.exec_eq, by simp, rfl, hregs, hmem, hctrl, fun n => step_of_interrupted⟩

/-- Settles O17: the one cell written is the one whose address operand A holds. -/
theorem stStoresWhereTheRegisterPoints : Obligations.StStoresWhereTheRegisterPoints := by
  unfold Obligations.StStoresWhereTheRegisterPoints
  refine ⟨fun _ _ => rfl, fun ra rb s => ?_, fun a b s h => withRegs_of_above_left h b s _,
    fun ra b s h => withRegs_of_above_right ra h s _, operandFetchFaults rfl⟩
  have hmakes : Makes (.st (regByte ra) (regByte rb)) s _ := .st ra rb
  exact ⟨_, hmakes.exec_eq, rfl, by simp, rfl, hmakes.frame rfl (by simp [storesTo]) rfl⟩

/-! ### The ALU -/

theorem toNat_narrow (n : Nat) : (narrow n).toNat = n % 256 :=
  BitVec.toNat_ofNat n 8

theorem toNat_narrow_div (u v : Byte) : (narrow (u.toNat / v.toNat)).toNat = u.toNat / v.toNat := by
  rw [toNat_narrow]
  exact Nat.mod_eq_of_lt (Nat.lt_of_le_of_lt (Nat.div_le_self _ _) u.isLt)

/-- Settles O29: each operation's exact result, narrowed; a quotient needs no narrowing. -/
theorem aluComputesItsFourOperations : Obligations.AluComputesItsFourOperations := by
  unfold Obligations.AluComputesItsFourOperations
  exact fun u v => ⟨⟨_, rfl, toNat_narrow _⟩, ⟨_, rfl, toNat_narrow _⟩, ⟨_, rfl, toNat_narrow _⟩,
    fun hv => ⟨_, if_neg hv, toNat_narrow_div u v⟩, fun hv => if_pos hv⟩

/-- Settles O18: the ALU's sum is narrowed to the byte that is written. -/
theorem addWrapsMod256 : Obligations.AddWrapsMod256 := by
  unfold Obligations.AddWrapsMod256
  refine ⟨fun _ _ => rfl, fun ra rb s => ?_, fun a b s h => withRegs_of_above_left h b s _,
    fun ra b s h => withRegs_of_above_right ra h s _, operandFetchFaults rfl⟩
  obtain ⟨⟨w, hw, hsum⟩, -⟩ := aluComputesItsFourOperations (s.reg ra) (s.reg rb)
  have hmakes := Makes.add ra rb hw
  exact ⟨_, hmakes.exec_eq, by simpa using hsum, rfl, hmakes.frame rfl rfl rfl⟩

/-- Settles O19: the ALU's product is narrowed to the byte that is written. -/
theorem mulKeepsTheLowByte : Obligations.MulKeepsTheLowByte := by
  unfold Obligations.MulKeepsTheLowByte
  refine ⟨fun _ _ => rfl, fun ra rb s => ?_, fun a b s h => withRegs_of_above_left h b s _,
    fun ra b s h => withRegs_of_above_right ra h s _, operandFetchFaults rfl⟩
  obtain ⟨-, -, ⟨w, hw, hproduct⟩, -⟩ := aluComputesItsFourOperations (s.reg ra) (s.reg rb)
  have hmakes := Makes.mul ra rb hw
  exact ⟨_, hmakes.exec_eq, by simpa using hproduct, rfl, hmakes.frame rfl rfl rfl⟩

/-- Settles O20: the ALU signals exactly on a zero divisor. -/
theorem divFloorsOrStops : Obligations.DivFloorsOrStops := by
  unfold Obligations.DivFloorsOrStops
  refine ⟨fun _ _ => rfl, fun ra rb s hdivisor => ?_, fun ra rb s hzero => ?_,
    fun a b s h => withRegs_of_above_left h b s _,
    fun ra b s h => withRegs_of_above_right ra h s _, operandFetchFaults rfl⟩
  · obtain ⟨-, -, -, hdiv, -⟩ := aluComputesItsFourOperations (s.reg ra) (s.reg rb)
    obtain ⟨w, hw, hquotient⟩ := hdiv hdivisor
    have hmakes := Makes.div ra rb hw
    exact ⟨_, hmakes.exec_eq, by simpa using hquotient, rfl, hmakes.frame rfl rfl rfl⟩
  · exact (RaisedBy.divZero ra rb hzero).exec_eq (by simp [Instr.wf])

/-- Settles O21: INC is the ALU's ADD with 1. -/
theorem incWrapsMod256 : Obligations.IncWrapsMod256 := by
  unfold Obligations.IncWrapsMod256
  refine ⟨fun _ => rfl, fun r s => ?_, fun a s h => withReg_of_above h s _, operandFetchFaults rfl⟩
  obtain ⟨⟨w, hw, hsum⟩, -⟩ := aluComputesItsFourOperations (s.reg r) 1
  have hmakes := Makes.inc r hw
  exact ⟨_, hmakes.exec_eq, by simpa using hsum, rfl, hmakes.frame rfl rfl rfl⟩

/-- Settles O31: the written result is the ALU's of the operands as they stood before. -/
theorem aluResultGoesToTheFirstOperand : Obligations.AluResultGoesToTheFirstOperand := by
  unfold Obligations.AluResultGoesToTheFirstOperand
  intro ra rb s
  obtain ⟨⟨sum, hsum, -⟩, -, ⟨product, hproduct, -⟩, hdiv, -⟩ :=
    aluComputesItsFourOperations (s.reg ra) (s.reg rb)
  obtain ⟨⟨successor, hsuccessor, -⟩, -⟩ := aluComputesItsFourOperations (s.reg ra) 1
  have hadd := Makes.add ra rb hsum
  have hmul := Makes.mul ra rb hproduct
  have hinc := Makes.inc ra hsuccessor
  refine ⟨⟨_, hadd.exec_eq, by simpa using hsum, hadd.keepsRegsBut rfl⟩,
    ⟨_, hmul.exec_eq, by simpa using hproduct, hmul.keepsRegsBut rfl⟩, fun hdivisor => ?_,
    ⟨_, hinc.exec_eq, by simpa using hsuccessor, hinc.keepsRegsBut rfl⟩⟩
  obtain ⟨quotient, hquotient, -⟩ := hdiv hdivisor
  have hmakes := Makes.div ra rb hquotient
  exact ⟨_, hmakes.exec_eq, by simpa using hquotient, hmakes.keepsRegsBut rfl⟩

/-! ### The stack and control transfer -/

theorem toNat_pushSlot {s : State} (h : s.sp ≠ 0) : (pushSlot s).toNat + 1 = s.sp.toNat := by
  unfold pushSlot
  bv_omega

theorem toNat_low8_add_two {p : PcWord} (h : p.toNat + 2 ≤ 0xFF) : (low8 (p + 2)).toNat = p.toNat + 2 := by
  rw [toNat_low8 (by bv_omega)]
  bv_omega

/-- Settles O22: the value stored is the register's after the decrement. -/
theorem pushStoresBelowTheStack : Obligations.PushStoresBelowTheStack := by
  unfold Obligations.PushStoresBelowTheStack
  refine ⟨fun _ => rfl, fun r s h => ?_, fun r s h => ?_, fun a s h => withReg_of_above h s _,
    operandFetchFaults rfl⟩
  · have hmakes := Makes.push r h
    exact ⟨_, hmakes.exec_eq, by simpa using toNat_pushSlot h, by simp, by simp, rfl,
      hmakes.frame (dests := [7]) rfl rfl rfl⟩
  · exact h ▸ (RaisedBy.pushFull r h).exec_eq (isRegByte_regByte r)

/-- Settles O23: for R7 the value popped is what is incremented. -/
theorem popLoadsTheTopOfStack : Obligations.PopLoadsTheTopOfStack := by
  unfold Obligations.PopLoadsTheTopOfStack
  refine ⟨fun _ => rfl, fun r s h => ?_, fun r s h => ?_, fun a s h => withReg_of_above h s _,
    operandFetchFaults rfl⟩
  · have hmakes := Makes.pop r h
    refine ⟨_, hmakes.exec_eq, fun hr => ?_, ?_, rfl, hmakes.frame (dests := [r, 7]) rfl rfl rfl⟩
    · simp [hr, spIdx, Ne.symm hr]
    · rintro rfl
      simp [spIdx]
  · exact (RaisedBy.popEmpty r h).exec_eq (isRegByte_regByte r)

/-- Settles O24: the check of the return address comes before that of the stack. -/
theorem callPushesTheReturnAddress : Obligations.CallPushesTheReturnAddress := by
  unfold Obligations.CallPushesTheReturnAddress
  refine ⟨fun _ => rfl, fun r s hp h => ?_, fun r s hp => ?_, fun r s hp h => ?_,
    fun a s h => withReg_of_above h s _, operandFetchFaults rfl⟩
  · have hmakes := Makes.call r hp h
    exact ⟨_, hmakes.exec_eq, by simpa using toNat_pushSlot h, by simp,
      by simpa using toNat_low8_add_two hp, by simp, hmakes.frame (dests := [7]) rfl rfl rfl⟩
  · have hraises := RaisedBy.callPastMemory r (s := s) (by rw [hp]; decide)
    rw [hraises.exec_eq (isRegByte_regByte r), hp]
    rfl
  · exact h ▸ (RaisedBy.callFull r hp h).exec_eq (isRegByte_regByte r)

/-- Settles O25: below `0xF4` x[7] has room to go up by one without a wrap. -/
theorem retPopsThePc : Obligations.RetPopsThePc := by
  unfold Obligations.RetPopsThePc
  refine ⟨rfl, fun s h => ?_, fun s h => ?_⟩
  · have hmakes := Makes.ret h
    refine ⟨_, hmakes.exec_eq, toNat_zext9 _, ?_, hmakes.frame (dests := [7]) rfl rfl rfl⟩
    rw [sp_dropTop, State.sp_setPc]
    bv_omega
  · exact (RaisedBy.retEmpty h).exec_eq rfl

/-- Settles O26: a byte is an address of the 9-bit PC as it stands. -/
theorem jmpSetsThePc : Obligations.JmpSetsThePc := by
  unfold Obligations.JmpSetsThePc
  exact ⟨fun _ => rfl, fun r s => ⟨zext9 (s.reg r), toNat_zext9 _, execJmp_regByte r s⟩,
    fun a s h => withReg_of_above h s _, operandFetchFaults rfl⟩

/-! ### The interrupt instructions -/

/-- Settles O27: the two named policies' `inte` are as `policyLs8Functions` and R177 say. -/
theorem inteAsksThePolicy : Obligations.InteAsksThePolicy := by
  unfold Obligations.InteAsksThePolicy
  refine ⟨fun _ => rfl, fun r s => ?_, fun a s h => withReg_of_above h s _, operandFetchFaults rfl⟩
  have hmakes : Makes (.inte (regByte r)) s _ := .inte r
  obtain ⟨-, -, -, hls8, -⟩ := policyLs8Functions
  refine ⟨_, hmakes.exec_eq, by simp, fun hpol => ?_, fun hpol k hk => ?_, rfl,
    hmakes.frame (dests := [6]) rfl rfl rfl⟩
  · simp only [State.reg_advance, State.reg_setReg, if_pos, State.pol, hpol]
    rfl
  · simp only [State.reg_advance, State.reg_setReg, if_pos, State.pol, hpol]
    exact hls8 (s.reg 6) (s.reg r) ⟨k, hk⟩

/-- Settles O28: the frame's cells are read upward from x[7], which has room for nine more up to `0xEB`. -/
theorem iretRestoresTheFrame : Obligations.IretRestoresTheFrame := by
  unfold Obligations.IretRestoresTheFrame
  refine ⟨rfl, fun s h => ?_, fun s h => ?_⟩
  · have hmakes := Makes.iret h
    refine ⟨_, hmakes.exec_eq, ?_, fun r hr => ?_, toNat_zext9 _, ?_, rfl, fun _ _ => rfl, ⟨rfl, rfl⟩,
      ⟨rfl, rfl⟩⟩
    · simp [returned]
    · rw [reg_returned, if_neg hr]
    · rw [State.sp_eq_reg, reg_returned, if_pos rfl]
      bv_omega
  · exact (RaisedBy.iretEmpty h).exec_eq rfl

end Sys2Proof.Machine
end

/-! The step: everything it can do, and from that its frames (spec/40_fsm_control.md R80, R81;
spec/60_exceptions.md R160 to R172). -/
section
namespace Sys2Proof.Machine

/-! ### Everything a step can do -/

/-- `StepRaises s f`: the step from `s` raises `f`. -/
inductive StepRaises (s : State) : Fault → Prop
  | pcOutOfRange (hrun : s.run = .running) (hp : 0xFF < s.pc) : StepRaises s (.memoryFault s.pc)
  | entryWithoutRoom (n : IntNum) (hn : Interrupted n s) (h : s.sp < 9) :
      StepRaises s (.stackFault .push s.sp)
  | fetchFails {f : Fault} (hs : Fetching s) (hf : fetch s = .error f) : StepRaises s f
  | instruction {i : Instr} {f : Fault} (hs : Fetching s) (hi : fetch s = .ok i) (hf : RaisedBy i s f) :
      StepRaises s f

/-- The four things a step can do: nothing, raise a fault, enter an interrupt, complete an instruction. -/
inductive StepOutcome (s t : State) : Prop
  | stays (hrun : s.run = .halted) (eq : t = s)
  | faults {f : Fault} (hf : StepRaises s f) (eq : t = haltedOn f s)
  | enters {n : IntNum} (hn : Interrupted n s) (hsp : 9 ≤ s.sp) (eq : t = entered n s)
  | completes {i : Instr} (hs : Fetching s) (hi : fetch s = .ok i) (makes : Makes i s t)

theorem step_answers (s : State) : ∃ t, step s = .next t ∧ StepOutcome s t := by
  rcases step_cases s with ⟨h, e⟩ | ⟨h, hp, e⟩ | ⟨n, hn, e⟩ | ⟨f, hs, hf, e⟩ | ⟨i, hs, hi, e⟩
  · exact ⟨s, e, .stays h rfl⟩
  · exact ⟨_, e, .faults (.pcOutOfRange h hp) rfl⟩
  · rcases interruptEntry_cases n s with ⟨hsp, e'⟩ | ⟨hsp, e'⟩
    · exact ⟨_, e.trans e', .faults (.entryWithoutRoom n hn hsp) rfl⟩
    · exact ⟨_, e.trans e', .enters hn hsp rfl⟩
  · exact ⟨_, e, .faults (.fetchFails hs hf) rfl⟩
  · rcases exec_cases i s with ⟨f, hf, e'⟩ | ⟨t, ht, e'⟩
    · exact ⟨_, e.trans e', .faults (.instruction hs hi hf) rfl⟩
    · exact ⟨t, e.trans e', .completes hs hi ht⟩

/-- Settles O9: each of the four outcomes of a step is a next state. -/
theorem everyStepAnswersNext : Obligations.EveryStepAnswersNext := by
  unfold Obligations.EveryStepAnswersNext
  intro s
  obtain ⟨t, h, -⟩ := step_answers s
  exact ⟨t, h⟩

theorem step_outcome {s t : State} (h : step s = .next t) : StepOutcome s t := by
  obtain ⟨u, hu, hout⟩ := step_answers s
  rw [h] at hu
  cases hu
  exact hout

/-! ### Faults -/

/-- A step that leaves a fault in STATUS where there was none has raised it: neither an entry nor an
instruction that completes records one. -/
theorem stepRaises_of_status_faulted {s t : State} {f : Fault} (hidle : s.status = .idle)
    (h : step s = .next t) (hst : t.status = .faulted f) : StepRaises s f ∧ t = haltedOn f s := by
  have hno : s.status ≠ .faulted f := by simp [hidle]
  cases step_outcome h with
  | stays _ eq => exact absurd (eq ▸ hst) hno
  | faults hf eq =>
    subst eq
    cases hst
    exact ⟨hf, rfl⟩
  | enters _ _ eq =>
    subst eq
    exact absurd hst hno
  | completes _ _ makes =>
    rcases makes.status with h' | h' <;> rw [h'] at hst
    · exact absurd hst hno
    · cases hst

/-- Settles O10: a fault in STATUS was raised by the step, and raising it changes RUN and STATUS alone. -/
theorem faultsArePrecise : Obligations.FaultsArePrecise := by
  unfold Obligations.FaultsArePrecise
  exact fun s t f hidle h hst => (stepRaises_of_status_faulted hidle h hst).2

/-- Settles O34: the entry without room and the five stack instructions are the only causes. -/
theorem stackFaultCauses : Obligations.StackFaultCauses := by
  unfold Obligations.StackFaultCauses
  intro s t d a hidle h hst
  cases (stepRaises_of_status_faulted hidle h hst).1 with
  | entryWithoutRoom n hn hsp => exact ⟨rfl, .inl ⟨rfl, .inr ⟨hsp, n, hn⟩⟩⟩
  | fetchFails hs hf => rcases fetch_error_cases hs.2.1 hf with ⟨hne, -⟩ | ⟨hne, -⟩ <;> cases hne
  | instruction hs hi hf =>
    cases hf with
    | pushFull r hsp => exact ⟨rfl, .inl ⟨rfl, .inl ⟨hsp, .inl (fetchesOpcode_of_fetch hs hi rfl)⟩⟩⟩
    | callFull r _ hsp =>
      exact ⟨rfl, .inl ⟨rfl, .inl ⟨hsp, .inr (fetchesOpcode_of_fetch hs hi rfl)⟩⟩⟩
    | popEmpty r hsp => exact ⟨rfl, .inr ⟨rfl, .inl ⟨hsp, .inl (fetchesOpcode_of_fetch hs hi rfl)⟩⟩⟩
    | retEmpty hsp => exact ⟨rfl, .inr ⟨rfl, .inl ⟨hsp, .inr (fetchesOpcode_of_fetch hs hi rfl)⟩⟩⟩
    | iretEmpty hsp => exact ⟨rfl, .inr ⟨rfl, .inr ⟨hsp, fetchesOpcode_of_fetch hs hi rfl⟩⟩⟩

/-! ### What changes the control state -/

theorem Makes.flags {i : Instr} {s t : State} (h : Makes i s t) :
    KeepsFlags s t ∨ (i = .iret ∧ t.ie = true) := by
  cases h with
  | iret => exact .inr ⟨rfl, rfl⟩
  | _ => exact .inl ⟨rfl, rfl⟩

theorem Makes.out {i : Instr} {s t : State} (h : Makes i s t) :
    t.out = s.out ∨ ∃ r, i = .prn (regByte r) ∧ t.out = s.out ++ [s.reg r] := by
  cases h with
  | prn r => exact .inr ⟨r, rfl, rfl⟩
  | _ => exact .inl rfl

theorem Makes.policy {i : Instr} {s t : State} (h : Makes i s t) : t.policy = s.policy := by
  cases h <;> rfl

/-- Settles O44: an entry and a fault keep FL, and of what completes IRET alone writes it. -/
theorem flagsChangeOnlyByIret : Obligations.FlagsChangeOnlyByIret := by
  unfold Obligations.FlagsChangeOnlyByIret
  intro s t h hne
  cases step_outcome h with
  | stays _ eq | faults _ eq | enters _ _ eq =>
    subst eq
    exact absurd rfl hne
  | completes hs hi makes =>
    rcases makes.flags with ⟨hfl, -⟩ | ⟨rfl, -⟩
    · exact absurd hfl hne
    · exact fetchesOpcode_of_fetch hs hi rfl

/-- Settles O39: an entry clears IE, IRET sets it, nothing else writes it; and IE gates the acceptance
that every entry needs. -/
theorem acceptanceChangesOnlyByEntryAndIret : Obligations.AcceptanceChangesOnlyByEntryAndIret := by
  unfold Obligations.AcceptanceChangesOnlyByEntryAndIret
  constructor
  · intro s t h hne
    cases step_outcome h with
    | stays _ eq | faults _ eq =>
      subst eq
      exact absurd rfl hne
    | enters hn _ eq => exact .inr ⟨eq ▸ rfl, _, hn⟩
    | completes hs hi makes =>
      rcases makes.flags with ⟨-, hie⟩ | ⟨rfl, hie⟩
      · exact absurd hie hne
      · exact .inl ⟨hie, fetchesOpcode_of_fetch hs hi rfl⟩
  · intro s hie
    have hnone := (acceptedInterrupt_eq_none_iff s).mpr (.inl hie)
    exact ⟨hnone, boundary_ne_enters hnone⟩

/-- Settles O46: of what completes PRN alone writes OUT, and its operand byte stands after its opcode. -/
theorem outputGrowsOnlyByPrn : Obligations.OutputGrowsOnlyByPrn := by
  unfold Obligations.OutputGrowsOnlyByPrn
  intro s t h hne
  cases step_outcome h with
  | stays _ eq | faults _ eq | enters _ _ eq =>
    subst eq
    exact absurd rfl hne
  | completes hs hi makes =>
    rcases makes.out with hout | ⟨r, rfl, hout⟩
    · exact absurd hout hne
    · exact ⟨r, fetchesOpcode_of_fetch hs hi rfl, operand_of_fetch hs.2.1 hi rfl, hout⟩

theorem step_policy {s t : State} (h : step s = .next t) : t.policy = s.policy := by
  cases step_outcome h with
  | stays _ eq | faults _ eq | enters _ _ eq =>
    subst eq
    rfl
  | completes _ _ makes => exact makes.policy

/-! ### The host's operations -/

theorem runAccepted_iff (s : State) :
    runAccepted s = true ↔ s.run = .halted ∧ (s.status = .idle ∨ s.status = .cleanHalt) := by
  cases hrun : s.run <;> cases hst : s.status <;> simp [runAccepted, hrun, hst]

theorem runRequest_eq_some_iff (s t : State) :
    runRequest s = some t ↔
      runAccepted s = true ∧ t = { s with run := .running, status := .idle } := by
  cases h : runAccepted s <;> simp [runRequest, h, eq_comm]

theorem load_eq_loaded_iff (bytes : List Byte) (s t : State) :
    load bytes s = .loaded t ↔
      s.run = .halted ∧ bytes.length ≤ 256 ∧ t = { s with mem := s.mem.writeList 0 bytes } := by
  cases hrun : s.run
  · by_cases hlen : 256 < bytes.length
    · simp [load, hrun, Config.memSize, hlen]
    · simp [load, hrun, Config.memSize, hlen, Nat.le_of_not_lt hlen, eq_comm]
  · simp [load, hrun]

/-- Settles O47: no step writes the policy, and the host's operations write other fields. -/
theorem policyNeverChanges : Obligations.PolicyNeverChanges := by
  unfold Obligations.PolicyNeverChanges
  refine ⟨fun s t => step_policy, fun s t h => ?_, fun s t bytes h => ?_, fun s => rfl⟩
  · rw [((runRequest_eq_some_iff s t).mp h).2]
  · rw [((load_eq_loaded_iff bytes s t).mp h).2.2]

/-- Settles O11: from the four outcomes of a step, and the conditions on which the host's requests are
accepted. -/
theorem runMachineTransitions : Obligations.RunMachineTransitions := by
  unfold Obligations.RunMachineTransitions
  refine ⟨fun s => step_of_halted, fun s t hrun hidle h => ?_, fun s t h => ?_, fun s t bytes h => ?_⟩
  · cases step_outcome h with
    | stays hhalted _ => rw [hrun] at hhalted; cases hhalted
    | faults _ eq =>
      subst eq
      exact .inr (.inr ⟨rfl, _, rfl⟩)
    | enters _ _ eq => exact .inl ⟨eq ▸ hrun, eq ▸ hidle⟩
    | completes hs hi makes =>
      rcases makes.run with ⟨hr, hst⟩ | ⟨rfl, hr, hst⟩
      · exact .inl ⟨hr.trans hrun, hst.trans hidle⟩
      · exact .inr (.inl ⟨hr, hst, fetchesOpcode_of_fetch hs hi rfl⟩)
  · obtain ⟨hacc, rfl⟩ := (runRequest_eq_some_iff s t).mp h
    exact ⟨((runAccepted_iff s).mp hacc).1, rfl⟩
  · obtain ⟨-, -, rfl⟩ := (load_eq_loaded_iff bytes s t).mp h
    exact ⟨rfl, rfl⟩

/-- Settles O53: `runRequest` is accepted on exactly these two states of STATUS. -/
theorem runIsRefusedAfterAFault : Obligations.RunIsRefusedAfterAFault := by
  unfold Obligations.RunIsRefusedAfterAFault
  intro s
  have hrefused (h : ¬ runAccepted s = true) : runRequest s = none := by rw [runRequest, if_neg h]
  refine ⟨fun hrun hst => ?_, fun f hf => hrefused ?_, fun hrun => hrefused ?_⟩
  · exact (runRequest_eq_some_iff s _).mpr ⟨(runAccepted_iff s).mpr ⟨hrun, hst⟩, rfl⟩
  · simp [runAccepted_iff, hf]
  · simp [runAccepted_iff, hrun]

/-! ### Fields that a step does not read -/

/-- A change `g` of the state that leaves alone what the fetch, the faults and the instruction read makes
no difference to the step but that it stays made. -/
theorem step_commutes {g : State → State} {s t : State} (hs : Fetching s) (hgs : Fetching (g s))
    (hpc : (g s).pc = s.pc) (hmem : (g s).mem = s.mem) (hhalt : ∀ f, haltedOn f (g s) = g (haltedOn f s))
    (hraised : ∀ i f, RaisedBy i s f → RaisedBy i (g s) f)
    (hmakes : ∀ i, fetch s = .ok i → Makes i s t → Makes i (g s) (g t)) (h : step s = .next t) :
    step (g s) = .next (g t) := by
  have hfetch : fetch (g s) = fetch s := fetch_congr hpc hmem
  cases hf : fetch s with
  | error f =>
    rw [step_of_fetch_error hs hf] at h
    cases h
    rw [step_of_fetch_error hgs (hfetch.trans hf), hhalt]
  | ok i =>
    rw [step_of_fetch_ok hs hf] at h
    rw [step_of_fetch_ok hgs (hfetch.trans hf)]
    cases hwf : i.wf with
    | false =>
      obtain ⟨b, hb⟩ := exec_of_not_wf hwf
      rw [hb] at h
      cases h
      rw [hb, hhalt, hpc]
    | true =>
      rcases exec_next_cases h with ⟨f, hr, rfl⟩ | hm
      · rw [(hraised i f hr).exec_eq hwf, hhalt]
      · exact (hmakes i hf hm).exec_eq

/-- No instruction's fault depends on FL or on the policy. -/
theorem RaisedBy.with_fl_policy {i : Instr} {s : State} {f : Fault} (h : RaisedBy i s f) (v : Byte)
    (p : PolicyId) : RaisedBy i { s with fl := v, policy := p } f := by
  cases h with
  | illFormed hi hb => exact .illFormed (s := { s with fl := v, policy := p }) hi hb
  | pushFull r h => exact .pushFull r (s := { s with fl := v, policy := p }) h
  | callPastMemory r h => exact .callPastMemory r (s := { s with fl := v, policy := p }) h
  | callFull r hp h => exact .callFull r (s := { s with fl := v, policy := p }) hp h
  | popEmpty r h => exact .popEmpty r (s := { s with fl := v, policy := p }) h
  | retEmpty h => exact .retEmpty (s := { s with fl := v, policy := p }) h
  | iretEmpty h => exact .iretEmpty (s := { s with fl := v, policy := p }) h
  | divZero ra rb h => exact .divZero ra rb (s := { s with fl := v, policy := p }) h

/-- IRET alone writes FL, and INTE alone asks the policy: any other instruction carries both along. -/
theorem Makes.with_fl_policy {i : Instr} {s t : State} (h : Makes i s t) (v : Byte) (p : PolicyId)
    (hi : i ≠ .iret) (hpol : ∀ a, i = .inte a → p = s.policy) :
    Makes i { s with fl := v, policy := p } { t with fl := v, policy := p } := by
  cases h with
  | iret => exact absurd rfl hi
  | inte r =>
    cases hpol _ rfl
    exact .inte r (s := { s with fl := v })
  | nop => exact .nop (s := { s with fl := v, policy := p })
  | hlt => exact .hlt (s := { s with fl := v, policy := p })
  | ret h => exact .ret (s := { s with fl := v, policy := p }) h
  | push r h => exact .push r (s := { s with fl := v, policy := p }) h
  | pop r h => exact .pop r (s := { s with fl := v, policy := p }) h
  | prn r => exact .prn r (s := { s with fl := v, policy := p })
  | call r hp h => exact .call r (s := { s with fl := v, policy := p }) hp h
  | jmp r => exact .jmp r (s := { s with fl := v, policy := p })
  | inc r h => exact .inc r (s := { s with fl := v, policy := p }) h
  | ldi r imm => exact .ldi r imm (s := { s with fl := v, policy := p })
  | st ra rb => exact .st ra rb (s := { s with fl := v, policy := p })
  | add ra rb h => exact .add ra rb (s := { s with fl := v, policy := p }) h
  | mul ra rb h => exact .mul ra rb (s := { s with fl := v, policy := p }) h
  | div ra rb h => exact .div ra rb (s := { s with fl := v, policy := p }) h

theorem Makes.with_policy {i : Instr} {s t : State} (h : Makes i s t) (p : PolicyId)
    (hi : ∀ a, i ≠ .inte a) : Makes i { s with policy := p } { t with policy := p } := by
  by_cases hiret : i = .iret
  · subst hiret
    cases h with
    | iret h => exact .iret (s := { s with policy := p }) h
  · have hfl : ({ t with fl := s.fl, policy := p } : State) = { t with policy := p } := by
      rw [← fl_of_exec_of_ne_iret hiret h.exec_eq]
    exact hfl ▸ h.with_fl_policy s.fl p hiret fun a ha => absurd ha (hi a)

/-- Settles O45: the instruction fetched is not IRET, so FL is carried along. -/
theorem flagsAreReadOnlyByEntry : Obligations.FlagsAreReadOnlyByEntry := by
  unfold Obligations.FlagsAreReadOnlyByEntry
  intro s t v hs hop h
  refine step_commutes (g := fun s => { s with fl := v }) hs hs rfl rfl (fun _ => rfl)
    (fun i f hf => hf.with_fl_policy v s.policy) (fun i hi hm => ?_) h
  have hiret : i ≠ .iret := by
    rintro rfl
    exact hop (opcode_of_fetch hs.2.1 hi rfl).1
  have hpol : ({ t with fl := v, policy := s.policy } : State) = { t with fl := v } := by
    rw [← hm.policy]
  exact hpol ▸ hm.with_fl_policy v s.policy hiret fun _ _ => rfl

/-- Settles O48: the instruction fetched is not INTE, so the policy is carried along. -/
theorem policyMattersOnlyToInterrupts : Obligations.PolicyMattersOnlyToInterrupts := by
  unfold Obligations.PolicyMattersOnlyToInterrupts
  intro s t p hs hs' hop h
  refine step_commutes (g := fun s => { s with policy := p }) hs hs' rfl rfl (fun _ => rfl)
    (fun i f hf => hf.with_fl_policy s.fl p) (fun i hi hm => hm.with_policy p ?_) h
  rintro a rfl
  exact hop (opcode_of_fetch hs.2.1 hi rfl).1

end Sys2Proof.Machine
end

/-! The invariant: canonical memory, PC in its range, STATUS true to its cause (spec/10_state.md R14, R20;
spec/60_exceptions.md R160 to R167). -/
section
namespace Sys2Proof.Machine

theorem zext9_le (v : Byte) : zext9 v ≤ 0xFF := by
  rw [BitVec.le_def, toNat_zext9]
  exact Nat.le_of_lt_succ v.isLt

/-- A fault that a step raises is recorded truthfully: each of its conditions was checked before. -/
theorem StepRaises.statusTruthful {s : State} {f : Fault} (h : StepRaises s f) (hpc : s.pc ≤ 0x100) :
    (haltedOn f s).statusTruthful := by
  cases h with
  | pcOutOfRange _ hp =>
    have hend : s.pc = 0x100 := by bv_omega
    have hlast : 0xFE ≤ s.pc := by bv_omega
    exact ⟨hend, hlast⟩
  | entryWithoutRoom n _ hsp => exact ⟨rfl, hsp⟩
  | fetchFails hs hf =>
    rcases fetch_error_cases hs.2.1 hf with ⟨rfl, hunknown⟩ | ⟨rfl, hp⟩
    · exact ⟨zext9_low8 hs.2.1, hunknown⟩
    · exact ⟨rfl, hp⟩
  | instruction hs hi hf =>
    cases hf with
    | illFormed _ hb => exact ⟨zext9_low8 hs.2.1, hb⟩
    | callPastMemory r hp =>
      have hfits := (opcode_of_fetch hs.2.1 hi rfl).2
      simp only [List.length_singleton] at hfits
      have hlast : s.pc = 0xFE := by bv_omega
      exact ⟨by rw [hlast]; decide, hlast ▸ BitVec.le_refl _⟩
    | pushFull r hsp | callFull r _ hsp => exact ⟨rfl, hsp ▸ by decide⟩
    | popEmpty r hsp | retEmpty hsp => exact ⟨rfl, by bv_omega⟩
    | iretEmpty hsp => exact ⟨rfl, hsp⟩
    | divZero => trivial

theorem statusTruthful_of_not_faulted {s : State} (h : s.status = .idle ∨ s.status = .cleanHalt) :
    s.statusTruthful := by
  unfold State.statusTruthful
  rcases h with h | h <;> rw [h] <;> trivial

/-- An instruction that completes leaves PC past its own bytes, or at the address in some byte. -/
theorem Makes.pc {i : Instr} {s t : State} (h : Makes i s t) :
    t.pc = s.pc + BitVec.ofNat 9 (encode i).length ∨ ∃ v, t.pc = zext9 v := by
  cases h with
  | ret | iret | call | jmp => exact .inr ⟨_, rfl⟩
  | _ => exact .inl rfl

/-- PC stays in its range, because the bytes of an instruction that is fetched lie in memory. -/
theorem Makes.pc_le {i : Instr} {s t : State} (h : Makes i s t) (hs : Fetching s) (hi : fetch s = .ok i) :
    t.pc ≤ 0x100 := by
  rcases h.pc with hpc | ⟨v, hpc⟩
  · obtain ⟨hlen, -⟩ := (fetch_eq_ok_iff hs.2.1 i).mp hi
    rw [hpc]
    bv_omega
  · rw [hpc]
    exact BitVec.le_trans (zext9_le v) (by decide)

theorem Makes.mem_wf {i : Instr} {s t : State} (h : Makes i s t) (hmem : s.mem.wf) : t.mem.wf := by
  cases exec_outcome i s t h.exec_eq with
  | faults f eq => exact eq ▸ hmem
  | completes _ _ _ _ _ mem => exact mem hmem

theorem Makes.inv {i : Instr} {s t : State} (h : Makes i s t) (hinv : s.Inv) (hs : Fetching s)
    (hi : fetch s = .ok i) : t.Inv := by
  obtain ⟨hmem, -, hidle, -⟩ := hinv
  refine ⟨h.mem_wf hmem, h.pc_le hs hi, ?_⟩
  rcases h.run with ⟨-, hst⟩ | ⟨-, hrun, hst⟩
  · have hst' := hst.trans (hidle hs.1)
    exact ⟨fun _ => hst', statusTruthful_of_not_faulted (.inl hst')⟩
  · exact ⟨fun hrunning => RunState.noConfusion (hrun.symm.trans hrunning), statusTruthful_of_not_faulted (.inr hst)⟩

theorem entered_inv {n : IntNum} {s : State} (hinv : s.Inv) (hn : Interrupted n s) :
    (entered n s).Inv := by
  obtain ⟨hmem, -, hidle, -⟩ := hinv
  have hst : (entered n s).status = .idle := hidle hn.1
  exact ⟨pushFrame_wf hmem, BitVec.le_trans (zext9_le _) (by decide), fun _ => hst,
    statusTruthful_of_not_faulted (.inl hst)⟩

/-- Settles O58: each of the four things a step can do keeps the invariant. -/
theorem everyStepKeepsTheInvariant : Obligations.EveryStepKeepsTheInvariant := by
  unfold Obligations.EveryStepKeepsTheInvariant
  intro s t hinv h
  cases step_outcome h with
  | stays _ eq => exact eq ▸ hinv
  | faults hf eq =>
    subst eq
    obtain ⟨hmem, hpc, -⟩ := hinv
    exact ⟨hmem, hpc, fun hrun => RunState.noConfusion hrun, hf.statusTruthful hpc⟩
  | enters hn _ eq => exact eq ▸ entered_inv hinv hn
  | completes hs hi makes => exact makes.inv hinv hs hi

theorem resetRequest_inv (s : State) : (resetRequest s).Inv :=
  ⟨⟨List.Pairwise.nil, by simp [resetRequest, State.reset]⟩, (by decide : State.reset.pc ≤ 0x100), fun _ => rfl, trivial⟩

/-- Settles O57: reset is the reset request of a machine with the same policy. -/
theorem resetMeetsTheInvariant : Obligations.ResetMeetsTheInvariant := by
  unfold Obligations.ResetMeetsTheInvariant
  exact resetRequest_inv .reset

/-- Settles O59: `load` writes inside the memory, `run` sets STATUS to Idle, and reset writes every field
the invariant speaks of. -/
theorem hostOperationsKeepTheInvariant : Obligations.HostOperationsKeepTheInvariant := by
  unfold Obligations.HostOperationsKeepTheInvariant
  refine ⟨fun s t bytes hinv h => ?_, fun s t hinv h => ?_, resetRequest_inv⟩
  · obtain ⟨-, hlen, rfl⟩ := (load_eq_loaded_iff bytes s t).mp h
    obtain ⟨hmem, hrest⟩ := hinv
    exact ⟨Memory.wf_writeList bytes (by simpa [Config.memSize] using hlen) hmem, hrest⟩
  · obtain ⟨-, rfl⟩ := (runRequest_eq_some_iff s t).mp h
    obtain ⟨hmem, hpc, -⟩ := hinv
    exact ⟨hmem, hpc, fun _ => rfl, trivial⟩

end Sys2Proof.Machine
end

/-! Memory, the host's view of it, reset, and runs (spec/20_memory.md R45, spec/70_reset_and_hazards.md,
spec/40_fsm_control.md R90). -/
section
namespace Sys2Proof.Machine

/-! ### Memory -/

/-- Settles O49: the last write is the one a read sees, by induction from the end of the sequence. -/
theorem readReturnsTheMostRecentWrite : Obligations.ReadReturnsTheMostRecentWrite := by
  unfold Obligations.ReadReturnsTheMostRecentWrite
  intro writes a
  induction writes using List.reverseRecOn with
  | nil => rfl
  | append_singleton writes w ih =>
    obtain ⟨b, v⟩ := w
    rw [List.foldl_append, List.foldl_cons, List.foldl_nil, State.load8_store8, List.reverse_append,
      List.reverse_singleton, List.singleton_append]
    by_cases hb : b = a
    · subst hb
      simp
    · rw [List.find?_cons_of_neg (by simpa using hb), ← ih, if_neg (Ne.symm hb)]

/-- An address below every listed one is not listed. -/
theorem Memory.read_of_lt {m : Memory} {a : Nat} (h : ∀ c ∈ m, a < c.1) : m.read a = Memory.unlisted := by
  induction m with
  | nil => rfl
  | cons c rest ih =>
    obtain ⟨k, w⟩ := c
    have hk : a < k := h (k, w) List.mem_cons_self
    rw [Memory.read, if_neg (Nat.ne_of_lt hk)]
    exact ih fun d hd => h d (List.mem_cons_of_mem _ hd)

/-- In canonical form the listed cells are those that do not read as an unlisted address does. -/
theorem Memory.mem_iff_read {m : Memory} (h : m.wf) (c : Host.Cell) :
    c ∈ m ↔ m.read c.1 = c.2 ∧ c.2 ≠ Memory.unlisted := by
  obtain ⟨a, v⟩ := c
  induction m with
  | nil => simp [eq_comm]
  | cons d rest ih =>
    obtain ⟨k, w⟩ := d
    obtain ⟨hrising, hcells⟩ := h
    obtain ⟨hk, hrest⟩ := List.pairwise_cons.mp hrising
    have ih := ih ⟨hrest, fun c hc => hcells c (List.mem_cons_of_mem _ hc)⟩
    have hw : w ≠ Memory.unlisted := (hcells (k, w) List.mem_cons_self).2
    rw [List.mem_cons, ih, Memory.read]
    by_cases ha : a = k
    · subst ha
      have hlow := Memory.read_of_lt hk
      simp only [Prod.mk.injEq, true_and, if_pos, hlow]
      constructor
      · rintro (rfl | ⟨hv, hne⟩)
        · exact ⟨rfl, hw⟩
        · exact absurd hv.symm hne
      · rintro ⟨rfl, -⟩
        exact .inl rfl
    · simp [ha]

/-- Settles O50: canonical memories that read alike list the same cells, in the one rising order. -/
theorem canonicalMemoriesAreEqualData : Obligations.CanonicalMemoriesAreEqualData := by
  unfold Obligations.CanonicalMemoriesAreEqualData
  intro m m' h h' hread
  have hirrefl : Std.Irrefl fun c d : Host.Cell => c.1 < d.1 := ⟨fun c => Nat.lt_irrefl c.1⟩
  have hantisymm : Std.Antisymm fun c d : Host.Cell => c.1 < d.1 :=
    ⟨fun c d hcd hdc => absurd hcd (Nat.lt_asymm hdc)⟩
  have hread (c : Host.Cell) (hc : c.1 < 256) : m.read c.1 = m'.read c.1 := by
    have hbyte := hread (BitVec.ofNat 8 c.1)
    rwa [BitVec.toNat_ofNat, Nat.mod_eq_of_lt hc] at hbyte
  refine h.1.eq_of_mem_iff h'.1 fun c => ⟨fun hc => ?_, fun hc => ?_⟩
  · rw [Memory.mem_iff_read h', ← hread c (h.2 c hc).1]
    exact (Memory.mem_iff_read h c).mp hc
  · rw [Memory.mem_iff_read h, hread c (h'.2 c hc).1]
    exact (Memory.mem_iff_read h' c).mp hc

/-! ### The host -/

/-- Settles O51: every cell of the empty memory reads as an unlisted address does. -/
theorem resetLeavesTheStatedValues : Obligations.ResetLeavesTheStatedValues := by
  unfold Obligations.ResetLeavesTheStatedValues
  exact ⟨by decide, rfl, rfl, rfl, rfl, fun _ => rfl, rfl, rfl, rfl⟩

/-- Settles O52: the writes of `load` are consecutive from address 0. -/
theorem loadWritesFromAddressZero : Obligations.LoadWritesFromAddressZero := by
  unfold Obligations.LoadWritesFromAddressZero
  intro bytes s
  refine ⟨fun hrun => ?_, fun hrun hlen => ?_, fun hrun hlen => ?_⟩
  · simp [load, hrun]
  · simp [load, hrun, Config.memSize, hlen]
  · refine ⟨_, (load_eq_loaded_iff bytes s _).mpr ⟨hrun, hlen, rfl⟩, fun k hk => ?_, fun k hk => ?_⟩
    · simp [Memory.read_writeList, hk]
    · simp [Memory.read_writeList, Nat.not_lt.mpr hk]

/-- Settles O54: the trace reads each byte as the fetch does, absent past the memory. -/
theorem traceShowsTheBoundary : Obligations.TraceShowsTheBoundary := by
  unfold Obligations.TraceShowsTheBoundary
  intro s
  have hbyte (a : Nat) : byteAt s a = if a ≤ 0xFF then some (s.mem.read a) else none := by
    simp [byteAt, Config.memSize, Nat.lt_succ_iff]
  refine ⟨rfl, fun _ => rfl, rfl, fun k hk => ?_⟩
  rw [← hbyte]
  interval_cases k <;> rfl

/-- Settles O56: the codes are R21's table. -/
theorem statusCodes : Obligations.StatusCodes := by
  unfold Obligations.StatusCodes
  exact ⟨rfl, rfl, rfl, fun _ _ => rfl, fun _ _ => rfl, rfl, fun _ => rfl, fun _ _ => rfl, rfl, rfl⟩

/-! ### Runs -/

theorem runFor_succ {s t : State} (h : step s = .next t) (k : Nat) : runFor (k + 1) s = runFor k t := by
  rw [runFor, h]

theorem runFor_of_halted {s : State} (h : s.run = .halted) (k : Nat) : runFor k s = s := by
  induction k with
  | zero => rfl
  | succ k ih => rw [runFor_succ (step_of_halted h), ih]

theorem runFor_add (k j : Nat) (s : State) : runFor (k + j) s = runFor j (runFor k s) := by
  induction k generalizing s with
  | zero => rw [Nat.zero_add]; rfl
  | succ k ih =>
    obtain ⟨t, h⟩ := everyStepAnswersNext s
    rw [Nat.succ_add, runFor_succ h, runFor_succ h, ih]

theorem runFor_add_of_halted {k : Nat} {s : State} (h : (runFor k s).run = .halted) (j : Nat) :
    runFor (k + j) s = runFor k s := by
  rw [runFor_add, runFor_of_halted h]

/-- Settles O55: a halted state is kept by every further step, so a state that still runs had no halted
one before it. -/
theorem runEndsAtTheFirstHalt : Obligations.RunEndsAtTheFirstHalt := by
  unfold Obligations.RunEndsAtTheFirstHalt
  intro k s _
  refine ⟨runFor_add_of_halted, fun hrunning j hj => ?_⟩
  cases hrun : (runFor j s).run with
  | running => rfl
  | halted =>
    have hsame := runFor_add_of_halted hrun (k - j)
    rw [Nat.add_sub_cancel' hj] at hsame
    rw [hsame, hrun] at hrunning
    exact hrunning

end Sys2Proof.Machine
end

/-! Interrupt entry and return, and the pairs of stack operations that undo one another
(spec/60_exceptions.md R173 to R181, spec/43_stack_and_control_transfer.md R133, R137). -/
section
namespace Sys2Proof.Machine

/-! ### The interrupt frame -/

/-- The nine bytes an entry saves, lowest address first (R174). -/
def savedFrame (n : IntNum) (s : State) : List Byte :=
  [s.fl, s.reg 0, s.reg 1, s.reg 2, s.reg 3, s.reg 4, s.reg 5, s.pol.ack (s.reg 6) n, low8 s.pc]

/-- The saved bytes stand from the new stack pointer upward. -/
theorem load8_entered_frame (n : IntNum) (s : State) (k : Nat) (hk : k < 9) :
    (entered n s).load8 (s.sp - 9 + BitVec.ofNat 8 k) = (savedFrame n s)[k] := by
  rw [load8_entered]
  interval_cases k <;> simp [savedFrame, sub_add]

/-- Register r, acknowledged, stands one cell above FL and r more (R174). -/
theorem load8_entered_reg (n : IntNum) (s : State) {r : RegIdx} (hr : r ≠ 7) :
    (entered n s).load8 (s.sp - 9 + 1 + regByte r) =
      if r = 6 then s.pol.ack (s.reg 6) n else s.reg r := by
  have haddr : s.sp - 9 + 1 + regByte r = s.sp - 9 + BitVec.ofNat 8 (r.val + 1) := by
    rw [BitVec.ofNat_add, add_comm (BitVec.ofNat 8 r.val), ← add_assoc]
    rfl
  rw [haddr, load8_entered_frame n s (r.val + 1) (by omega)]
  match r, hr with
  | 0, _ | 1, _ | 2, _ | 3, _ | 4, _ | 5, _ | 6, _ => rfl
  | 7, h7 => exact absurd rfl h7

theorem step_of_interrupted_of_room {n : IntNum} {s : State} (hn : Interrupted n s) (hsp : 9 ≤ s.sp) :
    step s = .next (entered n s) :=
  (step_of_interrupted hn).trans
    ((interruptEntry_cases n s).resolve_left fun h => BitVec.not_lt.mpr hsp h.1).2

/-- Settles O35: the frame's cells are `savedFrame`, and what else an entry does is `entered_spec`. -/
theorem interruptEntryBuildsTheFrame : Obligations.InterruptEntryBuildsTheFrame := by
  unfold Obligations.InterruptEntryBuildsTheFrame
  intro n s hn hsp
  obtain ⟨hsp', hreg, hfl, hie, hrun, hst, hout, hpol, hpc⟩ := entered_spec n s
  refine ⟨entered n s, step_of_interrupted_of_room hn hsp, ?_, fun r h6 h7 => ?_, ?_, ?_, ?_, hsp',
    fun r hr => ?_, hie, hfl, ?_, fun a ha => ?_, ⟨hrun, hst⟩, hout, hpol⟩
  · simp [load8_entered]
  · have hbase : s.sp - 8 = s.sp - 9 + 1 := by bv_omega
    rw [hbase, load8_entered_reg n s h7, if_neg h6]
  · simp [load8_entered]
  · simp [load8_entered, toNat_low8 hn.2.1]
  · simp [hreg 6]
  · simp only [List.mem_cons, List.not_mem_nil, or_false, not_or] at hr
    rw [hreg r hr.2, if_neg hr.1]
  · rw [hpc, toNat_zext9]
  · simp only [List.mem_cons, List.not_mem_nil, or_false, not_or] at ha
    simp only [load8_entered, ha, if_false]

/-- Settles O36: the room for the nine bytes is checked before anything is done. -/
theorem interruptEntryWithoutRoomFaults : Obligations.InterruptEntryWithoutRoomFaults := by
  unfold Obligations.InterruptEntryWithoutRoomFaults
  intro n s hn hsp
  rw [step_of_interrupted hn]
  exact ((interruptEntry_cases n s).resolve_right fun h => BitVec.not_lt.mpr h.1 hsp).2

/-- Settles O37: IRET reads the nine cells that the entry saved, in the order in which they stand. -/
theorem iretResumesTheInterruptedProgram : Obligations.IretResumesTheInterruptedProgram := by
  unfold Obligations.IretResumesTheInterruptedProgram
  intro n s t hn hlow hhigh h u husp hcells
  rw [step_of_interrupted_of_room hn hlow] at h
  cases h
  have htsp : (entered n s).sp = s.sp - 9 := (entered_spec n s).1
  rw [htsp] at husp hcells
  have hmakes : Makes .iret u (returned u) := .iret (by rw [husp]; bv_omega)
  have hreg (r : RegIdx) (hr : r ≠ 7) :
      (returned u).reg r = if r = 6 then s.pol.ack (s.reg 6) n else s.reg r := by
    have hk : 1 + regByte r < 9 := by
      have := toNat_regByte r
      bv_omega
    rw [reg_returned, if_neg hr, husp, add_assoc, hcells _ hk, ← add_assoc, load8_entered_reg n s hr]
  refine ⟨_, hmakes.exec_eq, ?_, fun r hr => ?_, hreg 6 (by decide), ?_, hn.2.2.1.symm, fun _ _ => rfl,
    ⟨rfl, rfl⟩, ⟨rfl, rfl⟩⟩
  · change u.load8 (u.sp + 0) = s.fl
    rw [husp, hcells 0 (by decide)]
    exact load8_entered_frame n s 0 (by decide)
  · by_cases h7 : r = 7
    · subst h7
      rw [reg_returned, if_pos rfl, husp, sub_add_cancel, State.sp_eq_reg]
    · rw [hreg r h7, if_neg hr]
  · change zext9 (u.load8 (u.sp + 8)) = s.pc
    rw [husp, hcells 8 (by decide)]
    exact (congrArg zext9 (load8_entered_frame n s 8 (by decide))).trans (zext9_low8 hn.2.1)

/-- Settles O38: IRET is as IretRestoresTheFrame says; a RET pops the lowest cell of the frame, FL. -/
theorem retIsNoReturnFromAnInterrupt : Obligations.RetIsNoReturnFromAnInterrupt := by
  unfold Obligations.RetIsNoReturnFromAnInterrupt
  constructor
  · intro s hsp
    obtain ⟨-, hiret, -⟩ := iretRestoresTheFrame
    obtain ⟨t, h, hfl, hreg, hpc, hsp', hie, -⟩ := hiret s hsp
    exact ⟨t, h, hfl, hreg, hpc, hsp', hie⟩
  · intro n s t hn hlow hhigh h
    rw [step_of_interrupted_of_room hn hlow] at h
    cases h
    obtain ⟨hsp, -, -, hie, -⟩ := entered_spec n s
    obtain ⟨-, hret, -⟩ := retPopsThePc
    obtain ⟨v, hv, hpc, hvsp, -, -, hctrl, -⟩ := hret (entered n s) (by rw [hsp]; bv_omega)
    refine ⟨v, hv, ?_, hvsp, hctrl.2.trans hie⟩
    rw [hpc, hsp]
    simp [load8_entered]

/-! ### Pairs of stack operations -/

/-- Settles O32: the POP reads the cell that the PUSH wrote, at the pointer that the PUSH left. -/
theorem pushThenPopMovesTheValue : Obligations.PushThenPopMovesTheValue := by
  unfold Obligations.PushThenPopMovesTheValue
  intro r q s hr hq hsp hhigh
  obtain ⟨-, hpush, -⟩ := pushStoresBelowTheStack
  obtain ⟨t, ht, htsp, hslot, hcell, htpc, htregs, -⟩ := hpush r s hsp
  obtain ⟨-, hpop, -⟩ := popLoadsTheTopOfStack
  obtain ⟨u, hu, hpopped, -, hupc, huregs, -⟩ := hpop q t (by bv_omega)
  obtain ⟨hvalue, husp⟩ := hpopped hq
  have hback : u.sp = s.sp := by bv_omega
  refine ⟨t, u, ht, hu, ?_, hback, ?_, fun p hp => ?_⟩
  · rw [hvalue, ← hslot, hcell, htregs r (by simpa using hr)]
  · rw [hupc, htpc]
    exact add_assoc _ _ _
  · by_cases h7 : p = 7
    · rw [h7]
      exact hback
    · rw [huregs p (by simpa [h7] using hp), htregs p (by simpa using h7)]

/-- Settles O33: the RET reads the cell that the CALL wrote, at the pointer that the CALL left. -/
theorem callThenRetResumesAfterTheCall : Obligations.CallThenRetResumesAfterTheCall := by
  unfold Obligations.CallThenRetResumesAfterTheCall
  intro r s hp hsp hhigh
  obtain ⟨-, hcall, -⟩ := callPushesTheReturnAddress
  obtain ⟨t, ht, htsp, hslot, hcell, -⟩ := hcall r s hp hsp
  refine ⟨t, ht, fun u husp hucell => ?_⟩
  obtain ⟨-, hret, -⟩ := retPopsThePc
  obtain ⟨v, hv, hvpc, hvsp, hframe⟩ := hret u (by bv_omega)
  rw [husp, hucell, ← hslot, hcell] at hvpc
  exact ⟨v, hv, by bv_omega, by bv_omega, hframe⟩

end Sys2Proof.Machine
end
